-- ==== Sys2Proof/Word.lean ====
section
/-!
DEFINITION. The word types of the core: a byte, a 16-bit word, a 12-bit address field and a register index
(spec/00_scope.md R7, R9, R10, R12).  Every value is unsigned (R10).
-/

namespace Sys2Proof

/-- One byte: a general register, a timer, a memory cell (R7 `V_WIDTH`, `TIMER_WIDTH`). -/
abbrev Byte := BitVec 8

/-- Sixteen bits: an instruction word, the index register, the program counter, a stack entry (R7). -/
abbrev Word := BitVec 16

/-- The 12-bit field `nnn` of an instruction word (R12, R71). -/
abbrev Addr12 := BitVec 12

/-- A general register's index, from a 4-bit field and so always in [0,16) (spec/10_state.md R21). -/
abbrev Reg := Fin 16

/-- `VF`, the register that is also the flag register (R22). -/
abbrev vf : Reg := 15

end Sys2Proof
end

