-- ==== Sys2Proof/Syntax.lean ====
section
/-!
DEFINITION. The 34 instructions of spec/30_encoding.md R84, one constructor per row of spec/opcode_table.json, in the
table's order.  A register field is a `Reg`, an immediate `nn` a byte, an address `nnn` twelve bits, and the sprite
height `n` a count whose range 0..15 Sys2Proof/WellFormed.lean checks (R73).
-/

namespace Sys2Proof

inductive Instr where
  /-- `00E0` `CLS` (R183) -/
  | cls
  /-- `00EE` `RET` (R120) -/
  | ret
  /-- `1nnn` `JP nnn` (R121) -/
  | jp (nnn : Addr12)
  /-- `2nnn` `CALL nnn` (R122) -/
  | call (nnn : Addr12)
  /-- `3xnn` `SE Vx, nn` (R123) -/
  | seImm (x : Reg) (nn : Byte)
  /-- `4xnn` `SNE Vx, nn` (R124) -/
  | sneImm (x : Reg) (nn : Byte)
  /-- `5xy0` `SE Vx, Vy` (R125) -/
  | seReg (x y : Reg)
  /-- `9xy0` `SNE Vx, Vy` (R126) -/
  | sneReg (x y : Reg)
  /-- `6xnn` `LD Vx, nn` (R140) -/
  | ldImm (x : Reg) (nn : Byte)
  /-- `7xnn` `ADD Vx, nn` (R141) -/
  | addImm (x : Reg) (nn : Byte)
  /-- `8xy0` `LD Vx, Vy` (R142) -/
  | ldReg (x y : Reg)
  /-- `8xy1` `OR Vx, Vy` (R143) -/
  | orReg (x y : Reg)
  /-- `8xy2` `AND Vx, Vy` (R144) -/
  | andReg (x y : Reg)
  /-- `8xy3` `XOR Vx, Vy` (R145) -/
  | xorReg (x y : Reg)
  /-- `8xy4` `ADD Vx, Vy` (R146) -/
  | addReg (x y : Reg)
  /-- `8xy5` `SUB Vx, Vy` (R147) -/
  | subReg (x y : Reg)
  /-- `8xy6` `SHR Vx`; the field `y` is decoded and not used (R148, R80) -/
  | shr (x y : Reg)
  /-- `8xy7` `SUBN Vx, Vy` (R149) -/
  | subnReg (x y : Reg)
  /-- `8xyE` `SHL Vx`; the field `y` is decoded and not used (R150, R80) -/
  | shl (x y : Reg)
  /-- `Annn` `LD I, nnn` (R160) -/
  | ldI (nnn : Addr12)
  /-- `Bnnn` `JP V0, nnn` (R127) -/
  | jpV0 (nnn : Addr12)
  /-- `Cxnn` `RND Vx, nn` (R151) -/
  | rnd (x : Reg) (nn : Byte)
  /-- `Dxyn` `DRW Vx, Vy, n` (R184) -/
  | drw (x y : Reg) (n : Nat)
  /-- `Ex9E` `SKP Vx` (R190) -/
  | skp (x : Reg)
  /-- `ExA1` `SKNP Vx` (R191) -/
  | sknp (x : Reg)
  /-- `Fx07` `LD Vx, DT` (R192) -/
  | ldVxDt (x : Reg)
  /-- `Fx0A` `LD Vx, K` (R193) -/
  | ldVxK (x : Reg)
  /-- `Fx15` `LD DT, Vx` (R194) -/
  | ldDtVx (x : Reg)
  /-- `Fx18` `LD ST, Vx` (R195) -/
  | ldStVx (x : Reg)
  /-- `Fx1E` `ADD I, Vx` (R161) -/
  | addI (x : Reg)
  /-- `Fx29` `LD F, Vx` (R162) -/
  | ldF (x : Reg)
  /-- `Fx33` `LD B, Vx` (R163) -/
  | ldB (x : Reg)
  /-- `Fx55` `LD [I], Vx` (R164) -/
  | storeRegs (x : Reg)
  /-- `Fx65` `LD Vx, [I]` (R165) -/
  | loadRegs (x : Reg)
deriving DecidableEq, Repr

end Sys2Proof
end

