-- ==== Sys2Proof/Decode.lean ====
section
/-!
DEFINITION. Decoding (spec/30_encoding.md R70 to R83) and, after it, the encoder written from the same formats (R72,
R84), and the opcode map itself as a list of rows (R84).
-/

namespace Sys2Proof

/-- Why the decoder gives no instruction.  The machine turns `unknownOpcode` into `Halted(UnknownOpcode)`. -/
inductive Reject where
  /-- fewer than two bytes are left: every instruction is one 16-bit word (R70) -/
  | truncated
  /-- the word is illegal (R81) -/
  | unknownOpcode (op : Word)
deriving DecidableEq, Repr

/-- `v[lo+len-1 : lo]`, the unsigned value of `len` bits of a word (R9). -/
def field (w : Word) (lo len : Nat) : Nat := w.toNat / 2 ^ lo % 2 ^ len

/-- `x = op[11:8]` (R12, R71). -/
def fieldX (w : Word) : Reg := Fin.ofNat 16 (field w 8 4)

/-- `y = op[7:4]`. -/
def fieldY (w : Word) : Reg := Fin.ofNat 16 (field w 4 4)

/-- `n = op[3:0]`. -/
def fieldN (w : Word) : Nat := field w 0 4

/-- `nn = op[7:0]`. -/
def fieldNN (w : Word) : Byte := BitVec.ofNat 8 (field w 0 8)

/-- `nnn = op[11:0]`. -/
def fieldNNN (w : Word) : Addr12 := BitVec.ofNat 12 (field w 0 12)

/-- Family 0: the full low 12 bits select (R75). -/
def decodeFamily0 (w : Word) : Except Reject Instr :=
  match field w 0 12 with
  | 0x0E0 => .ok .cls
  | 0x0EE => .ok .ret
  | _ => .error (.unknownOpcode w)

/-- Family 8: the low nibble selects (R77). -/
def decodeFamily8 (w : Word) : Except Reject Instr :=
  match field w 0 4 with
  | 0x0 => .ok (.ldReg (fieldX w) (fieldY w))
  | 0x1 => .ok (.orReg (fieldX w) (fieldY w))
  | 0x2 => .ok (.andReg (fieldX w) (fieldY w))
  | 0x3 => .ok (.xorReg (fieldX w) (fieldY w))
  | 0x4 => .ok (.addReg (fieldX w) (fieldY w))
  | 0x5 => .ok (.subReg (fieldX w) (fieldY w))
  | 0x6 => .ok (.shr (fieldX w) (fieldY w))
  | 0x7 => .ok (.subnReg (fieldX w) (fieldY w))
  | 0xE => .ok (.shl (fieldX w) (fieldY w))
  | _ => .error (.unknownOpcode w)

/-- Family E: the low byte selects (R78). -/
def decodeFamilyE (w : Word) : Except Reject Instr :=
  match field w 0 8 with
  | 0x9E => .ok (.skp (fieldX w))
  | 0xA1 => .ok (.sknp (fieldX w))
  | _ => .error (.unknownOpcode w)

/-- Family F: the low byte selects (R79). -/
def decodeFamilyF (w : Word) : Except Reject Instr :=
  match field w 0 8 with
  | 0x07 => .ok (.ldVxDt (fieldX w))
  | 0x0A => .ok (.ldVxK (fieldX w))
  | 0x15 => .ok (.ldDtVx (fieldX w))
  | 0x18 => .ok (.ldStVx (fieldX w))
  | 0x1E => .ok (.addI (fieldX w))
  | 0x29 => .ok (.ldF (fieldX w))
  | 0x33 => .ok (.ldB (fieldX w))
  | 0x55 => .ok (.storeRegs (fieldX w))
  | 0x65 => .ok (.loadRegs (fieldX w))
  | _ => .error (.unknownOpcode w)

/-- The two-level tree of R74: the high nibble, then the family's selector (R75 to R79).  It depends on the word
alone (R83). -/
def decodeWord (w : Word) : Except Reject Instr :=
  match field w 12 4 with
  | 0x0 => decodeFamily0 w
  | 0x1 => .ok (.jp (fieldNNN w))
  | 0x2 => .ok (.call (fieldNNN w))
  | 0x3 => .ok (.seImm (fieldX w) (fieldNN w))
  | 0x4 => .ok (.sneImm (fieldX w) (fieldNN w))
  | 0x5 => if field w 0 4 = 0 then .ok (.seReg (fieldX w) (fieldY w)) else .error (.unknownOpcode w)
  | 0x6 => .ok (.ldImm (fieldX w) (fieldNN w))
  | 0x7 => .ok (.addImm (fieldX w) (fieldNN w))
  | 0x8 => decodeFamily8 w
  | 0x9 => if field w 0 4 = 0 then .ok (.sneReg (fieldX w) (fieldY w)) else .error (.unknownOpcode w)
  | 0xA => .ok (.ldI (fieldNNN w))
  | 0xB => .ok (.jpV0 (fieldNNN w))
  | 0xC => .ok (.rnd (fieldX w) (fieldNN w))
  | 0xD => .ok (.drw (fieldX w) (fieldY w) (fieldN w))
  | 0xE => decodeFamilyE w
  | 0xF => decodeFamilyF w
  | _ => .error (.unknownOpcode w)

/-- The word of two consecutive bytes, most significant byte first (spec/20_memory.md R55, R70). -/
def wordOfBytes (hi lo : Byte) : Word := BitVec.ofNat 16 (hi.toNat * 256 + lo.toNat)

/-- The two bytes of a word in memory order: the lower address holds `op[15:8]` (R55). -/
def bytesOfWord (w : Word) : List Byte := [BitVec.ofNat 8 (w.toNat / 256), BitVec.ofNat 8 (w.toNat % 256)]

/-- Decoding a byte sequence: one instruction is two bytes; what follows is returned (R70). -/
def decode : List Byte → Except Reject (Instr × List Byte)
  | hi :: lo :: rest =>
    match decodeWord (wordOfBytes hi lo) with
    | .ok i => .ok (i, rest)
    | .error r => .error r
  | [] | [_] => .error .truncated

/-- The host's reading of a table row's word: bit 0 is the word's least significant bit and every bit from `nbits` on
is 0; the word is laid out as the hardware stores it and given to `decode`. -/
def decodeTableWord (nbits w : Nat) : Option Instr :=
  match decode (bytesOfWord (BitVec.ofNat 16 (w % 2 ^ nbits))) with
  | .ok (i, _) => some i
  | .error _ => none

/-! ## The encoder -/

/-- Format A: a family and a 12-bit address (R72). -/
def encodeA (fam : Nat) (nnn : Addr12) : Word := BitVec.ofNat 16 (fam * 0x1000 + nnn.toNat)

/-- Format XI: a family, a register and an 8-bit immediate (R72). -/
def encodeXI (fam : Nat) (x : Reg) (nn : Byte) : Word := BitVec.ofNat 16 (fam * 0x1000 + x.val * 0x100 + nn.toNat)

/-- Formats XY and XYN: a family, two registers and a low nibble, a selector or a height (R72). -/
def encodeXYN (fam : Nat) (x y : Reg) (n : Nat) : Word :=
  BitVec.ofNat 16 (fam * 0x1000 + x.val * 0x100 + y.val * 0x10 + n % 16)

/-- Format XS: a family, a register and a byte selector (R72). -/
def encodeXS (fam : Nat) (x : Reg) (sel : Nat) : Word := BitVec.ofNat 16 (fam * 0x1000 + x.val * 0x100 + sel)

/-- The word of an instruction (R72, R84). -/
def encode : Instr → Word
  | .cls => 0x00E0
  | .ret => 0x00EE
  | .jp nnn => encodeA 0x1 nnn
  | .call nnn => encodeA 0x2 nnn
  | .seImm x nn => encodeXI 0x3 x nn
  | .sneImm x nn => encodeXI 0x4 x nn
  | .seReg x y => encodeXYN 0x5 x y 0x0
  | .sneReg x y => encodeXYN 0x9 x y 0x0
  | .ldImm x nn => encodeXI 0x6 x nn
  | .addImm x nn => encodeXI 0x7 x nn
  | .ldReg x y => encodeXYN 0x8 x y 0x0
  | .orReg x y => encodeXYN 0x8 x y 0x1
  | .andReg x y => encodeXYN 0x8 x y 0x2
  | .xorReg x y => encodeXYN 0x8 x y 0x3
  | .addReg x y => encodeXYN 0x8 x y 0x4
  | .subReg x y => encodeXYN 0x8 x y 0x5
  | .shr x y => encodeXYN 0x8 x y 0x6
  | .subnReg x y => encodeXYN 0x8 x y 0x7
  | .shl x y => encodeXYN 0x8 x y 0xE
  | .ldI nnn => encodeA 0xA nnn
  | .jpV0 nnn => encodeA 0xB nnn
  | .rnd x nn => encodeXI 0xC x nn
  | .drw x y n => encodeXYN 0xD x y n
  | .skp x => encodeXS 0xE x 0x9E
  | .sknp x => encodeXS 0xE x 0xA1
  | .ldVxDt x => encodeXS 0xF x 0x07
  | .ldVxK x => encodeXS 0xF x 0x0A
  | .ldDtVx x => encodeXS 0xF x 0x15
  | .ldStVx x => encodeXS 0xF x 0x18
  | .addI x => encodeXS 0xF x 0x1E
  | .ldF x => encodeXS 0xF x 0x29
  | .ldB x => encodeXS 0xF x 0x33
  | .storeRegs x => encodeXS 0xF x 0x55
  | .loadRegs x => encodeXS 0xF x 0x65

/-! ## The opcode map -/

/-- One row of R84's table: a word `w` is the row's instruction iff `w & mask == value` (the table's `match`). -/
structure OpRow where
  value : Word
  mask : Word
deriving DecidableEq, Repr

/-- The row of R84 that an instruction stands in. -/
def rowOf : Instr → OpRow
  | .cls => ⟨0x00E0, 0xFFFF⟩
  | .ret => ⟨0x00EE, 0xFFFF⟩
  | .jp _ => ⟨0x1000, 0xF000⟩
  | .call _ => ⟨0x2000, 0xF000⟩
  | .seImm _ _ => ⟨0x3000, 0xF000⟩
  | .sneImm _ _ => ⟨0x4000, 0xF000⟩
  | .seReg _ _ => ⟨0x5000, 0xF00F⟩
  | .sneReg _ _ => ⟨0x9000, 0xF00F⟩
  | .ldImm _ _ => ⟨0x6000, 0xF000⟩
  | .addImm _ _ => ⟨0x7000, 0xF000⟩
  | .ldReg _ _ => ⟨0x8000, 0xF00F⟩
  | .orReg _ _ => ⟨0x8001, 0xF00F⟩
  | .andReg _ _ => ⟨0x8002, 0xF00F⟩
  | .xorReg _ _ => ⟨0x8003, 0xF00F⟩
  | .addReg _ _ => ⟨0x8004, 0xF00F⟩
  | .subReg _ _ => ⟨0x8005, 0xF00F⟩
  | .shr _ _ => ⟨0x8006, 0xF00F⟩
  | .subnReg _ _ => ⟨0x8007, 0xF00F⟩
  | .shl _ _ => ⟨0x800E, 0xF00F⟩
  | .ldI _ => ⟨0xA000, 0xF000⟩
  | .jpV0 _ => ⟨0xB000, 0xF000⟩
  | .rnd _ _ => ⟨0xC000, 0xF000⟩
  | .drw _ _ _ => ⟨0xD000, 0xF000⟩
  | .skp _ => ⟨0xE09E, 0xF0FF⟩
  | .sknp _ => ⟨0xE0A1, 0xF0FF⟩
  | .ldVxDt _ => ⟨0xF007, 0xF0FF⟩
  | .ldVxK _ => ⟨0xF00A, 0xF0FF⟩
  | .ldDtVx _ => ⟨0xF015, 0xF0FF⟩
  | .ldStVx _ => ⟨0xF018, 0xF0FF⟩
  | .addI _ => ⟨0xF01E, 0xF0FF⟩
  | .ldF _ => ⟨0xF029, 0xF0FF⟩
  | .ldB _ => ⟨0xF033, 0xF0FF⟩
  | .storeRegs _ => ⟨0xF055, 0xF0FF⟩
  | .loadRegs _ => ⟨0xF065, 0xF0FF⟩

/-- R84's 34 rows in its order, written as the rows of one instruction each. -/
def opcodeRows : List OpRow :=
  [.cls, .ret, .jp 0, .call 0, .seImm 0 0, .sneImm 0 0, .seReg 0 0, .sneReg 0 0, .ldImm 0 0, .addImm 0 0].map rowOf ++
  [.ldReg 0 0, .orReg 0 0, .andReg 0 0, .xorReg 0 0, .addReg 0 0, .subReg 0 0, .shr 0 0, .subnReg 0 0, .shl 0 0].map rowOf ++
  [.ldI 0, .jpV0 0, .rnd 0 0, .drw 0 0 0, .skp 0, .sknp 0].map rowOf ++
  [.ldVxDt 0, .ldVxK 0, .ldDtVx 0, .ldStVx 0, .addI 0, .ldF 0, .ldB 0, .storeRegs 0, .loadRegs 0].map rowOf

/-- A word belongs to a row (R84). -/
def OpRow.matches (r : OpRow) (w : Word) : Bool := w &&& r.mask == r.value

end Sys2Proof
end

