-- ==== Sys2Proof/Config.lean ====
section
/-!
DEFINITION. The fixed parameters of the block (spec/00_scope.md R7) and the one input it leaves free, the random byte
of `Cxnn` (R8 `RAND`, spec/60_exceptions.md R219).  The open parameter `FONT_ROM` is an argument of the reset
operation (Sys2Proof/Machine/HostOps.lean); its default value stands in Sys2Proof/Machine/Memory.lean.
-/

namespace Sys2Proof

/-- `MEM_SIZE`: addresses 0 to 4095 (R7, R50). -/
abbrev Config.memSize : Nat := 4096

/-- `STACK_DEPTH` (R7). -/
abbrev Config.stackDepth : Nat := 16

/-- `DISP_W` (R7). -/
abbrev Config.dispW : Nat := 64

/-- `DISP_H` (R7). -/
abbrev Config.dispH : Nat := 32

/-- The number of display cells, 64 × 32 (R7, R30). -/
abbrev Config.dispCells : Nat := 2048

/-- `NUM_KEYS` (R7). -/
abbrev Config.numKeys : Nat := 16

/-- `GLYPH_BYTES` (R7): the factor of `Fx29`. -/
abbrev Config.glyphBytes : Nat := 5

/-- `FONT_BYTES` (R7). -/
abbrev Config.fontBytes : Nat := 80

/-- `PROG_BASE` (R7): where a program is loaded and where it starts. -/
abbrev Config.progBase : Nat := 0x200

/-- `MAX_ROM` = 4096 − 512 (R7). -/
abbrev Config.maxRom : Nat := 3584

/-- `RAND`: the byte given to the `k`-th execution of `Cxnn` (R8, R151, R219).  DESIGN CHOICE (log entry 2), safe: a
constant without a body, so nothing can be proved about any byte of the sequence; "a free input under no law". -/
opaque Config.rand : Nat → Byte

end Sys2Proof
end

