-- ==== Sys2Proof/Machine/Memory.lean ====
section
/-!
DEFINITION. Memory (spec/20_memory.md): 4096 byte cells, held as the list of those that differ from the reset contents
of an empty ROM, by rising address.  Equal memories are equal lists.
-/

namespace Sys2Proof.Machine

/-- Memory as plain data. -/
abbrev Memory := List Host.Cell

/-- The default value of `FONT_ROM` (spec/93_implementation_defined.md section 3; spec/00_scope.md R8): 16 glyphs of 5
bytes, glyph d at 5·d.  PRESUMED (log entry 1), unsafe: general knowledge, not in the source. -/
def defaultFont : List Byte :=
  [0xF0, 0x90, 0x90, 0x90, 0xF0] ++ [0x20, 0x60, 0x20, 0x20, 0x70] ++
  [0xF0, 0x10, 0xF0, 0x80, 0xF0] ++ [0xF0, 0x10, 0xF0, 0x10, 0xF0] ++
  [0x90, 0x90, 0xF0, 0x10, 0x10] ++ [0xF0, 0x80, 0xF0, 0x10, 0xF0] ++
  [0xF0, 0x80, 0xF0, 0x90, 0xF0] ++ [0xF0, 0x10, 0x20, 0x40, 0x40] ++
  [0xF0, 0x90, 0xF0, 0x90, 0xF0] ++ [0xF0, 0x90, 0xF0, 0x10, 0xF0] ++
  [0xF0, 0x90, 0xF0, 0x90, 0x90] ++ [0xE0, 0x90, 0xE0, 0x90, 0xE0] ++
  [0xF0, 0x80, 0x80, 0x80, 0xF0] ++ [0xE0, 0x90, 0x90, 0x90, 0xE0] ++
  [0xF0, 0x80, 0xF0, 0x80, 0xF0] ++ [0xF0, 0x80, 0xF0, 0x80, 0x80]

/-- The default font as the 80 bytes that the reset operation takes. -/
def defaultFontRom : Vector Byte 80 := ⟨defaultFont.toArray, by decide⟩

/-- What an unlisted address reads as: the reset contents, the font at 0x000 to 0x04F and zero elsewhere
(spec/10_state.md R37, R51).  It is a way to write memory down only: a machine with another font lists the bytes that
differ (log entry 1). -/
def unlisted (a : Nat) : Byte := defaultFont.getD a 0

/-- `MEM[a]`.  An address of 4096 or more has no cell; no rule reads one, since each tests `inBounds` first (R54). -/
def Memory.read : Memory → Nat → Byte
  | [], a => unlisted a
  | (k, b) :: rest, a => if k = a then b else Memory.read rest a

/-- The memory without a cell listed for `a`. -/
def Memory.erase (m : Memory) (a : Nat) : Memory := m.filter fun c => c.1 != a

/-- A cell put in its place by rising address. -/
def Memory.insert : Memory → Nat → Byte → Memory
  | [], a, b => [(a, b)]
  | (k, c) :: rest, a, b => if a < k then (a, b) :: (k, c) :: rest else (k, c) :: Memory.insert rest a b

/-- `MEM[a] <- b`: the cell is listed only where it differs from `unlisted`.  An address of 4096 or more has no cell and
nothing is written; no rule writes one (R54). -/
def Memory.write (m : Memory) (a : Nat) (b : Byte) : Memory :=
  if a < Config.memSize then
    if b = unlisted a then Memory.erase m a else Memory.insert (Memory.erase m a) a b
  else m

/-- Consecutive writes from `a` upwards, in order. -/
def Memory.writeBytes : Memory → Nat → List Byte → Memory
  | m, _, [] => m
  | m, a, b :: rest => Memory.writeBytes (Memory.write m a b) (a + 1) rest

/-- `MEM[a], …, MEM[a + n - 1]`. -/
def Memory.readBytes (m : Memory) (a n : Nat) : List Byte := (List.range n).map fun j => Memory.read m (a + j)

/-- The canonical form: addresses strictly rising and inside memory, no cell equal to what its address reads as
unlisted. -/
abbrev Memory.wf (m : Memory) : Prop :=
  m.Pairwise (fun p q => p.1 < q.1) ∧ ∀ c ∈ m, c.1 < Config.memSize ∧ c.2 ≠ unlisted c.1

/-- `InBounds(a, n) := (a + n - 1 < 4096)`, on unbounded integers, for n ≥ 1 (R53, R54). -/
def inBounds (a n : Nat) : Bool := decide (a + n - 1 < Config.memSize)

end Sys2Proof.Machine
end

