-- ==== Sys2Proof/Machine/State.lean ====
section
/-!
DEFINITION. The architectural state of the core (spec/10_state.md R20), its value after reset (R37), and the reasons a
step can end without a next state.
-/

namespace Sys2Proof.Machine

/-- The seven fault kinds (R35, spec/60_exceptions.md R200). -/
inductive FaultKind where
  /-- code 1: `PC + 1 ≥ 4096` at fetch -/
  | fetchOutOfBounds
  /-- code 2: an access through I reaches address 4096 or more -/
  | memoryOutOfBounds
  /-- code 3: a call with SP = 16 -/
  | stackOverflow
  /-- code 4: a return with SP = 0 -/
  | stackUnderflow
  /-- code 5: the fetched word is illegal -/
  | unknownOpcode
  /-- code 6: a key skip with Vx ≥ 16 -/
  | invalidKeyIndex
  /-- code 7: a ROM image longer than 3584 bytes, in `reset` only -/
  | loadError
deriving DecidableEq, Repr

/-- The values of `STATE` (R32). -/
inductive ExecState where
  /-- ready to fetch; the initial state -/
  | running
  /-- an `Fx0A` with x = t is waiting for a key; PC points at it -/
  | blocked (t : Reg)
  /-- the last step executed `Dxyn` -/
  | drawPending
  /-- the last step executed `00E0` -/
  | clearPending
  /-- stepping suspended by the host -/
  | paused
  /-- terminal; a fault occurred -/
  | halted (k : FaultKind)
deriving DecidableEq, Repr

/-- Reasons for which the machine would stop WITHOUT a next state: there are none.  Every fault of this hardware is a
next state with `STATE = Halted(K)` (R111, R201; log entry 3), so no constructor is needed. -/
inductive Fault where
deriving DecidableEq, Repr

/-- Reasons for which an instruction is given no meaning. -/
inductive Refusal where
  /-- raised only by an arm of `exec` whose instruction has no meaning; no arm of this model does so.  Safe. -/
  | notModelled (mnemonic : String)
deriving DecidableEq, Repr

/-- The 2048 display cells as 32 rows of 64 columns: cell `r * 64 + c` is bit `c` of row `r` (R30). -/
abbrev Display := Vector (BitVec 64) 32

/-- The state tuple of R20, and one counter of the model's own. -/
structure State where
  /-- `MEM`, 4096 bytes, as the cells that differ from what an unlisted address reads as
  (Sys2Proof/Machine/Memory.lean) -/
  mem : List Host.Cell
  /-- `V[0..15]` (R21) -/
  v : Vector Byte 16
  /-- `I` (R24) -/
  i : Word
  /-- `PC` (R25) -/
  pc : Word
  /-- `STACK[0..15]` (R26) -/
  stack : Vector Word 16
  /-- `SP`, in [0,16] (R27) -/
  sp : Fin 17
  /-- `DT`, the delay timer (R28) -/
  dt : Byte
  /-- `ST`, the sound timer (R29) -/
  st : Byte
  /-- `DISP` (R30) -/
  disp : Display
  /-- `KEYS`: bit `k` is key `k`, 1 meaning pressed (R31) -/
  keys : BitVec 16
  /-- `STATE` (R32) -/
  state : ExecState
  /-- `SAVED`: what `STATE` was at the last pause (R33) -/
  saved : ExecState
  /-- The MODEL's own field, not the spec's: how many bytes of `Config.rand` have been drawn (log entry 2). -/
  draws : Nat
deriving DecidableEq, Repr

/-- The machine right after `reset` with a ROM of 0 bytes (R37, spec/70_reset_and_hazards.md R240): every value is the
spec's but `draws`, which is the model's own (DESIGN CHOICE, log entry 2), and the font that the empty memory list stands
for (PRESUMED, log entry 1). -/
def State.reset : State where
  mem := []
  v := Vector.replicate 16 0
  i := 0
  pc := 0x200
  stack := Vector.replicate 16 0
  sp := 0
  dt := 0
  st := 0
  disp := Vector.replicate 32 0
  keys := 0
  state := .running
  saved := .running
  draws := 0

end Sys2Proof.Machine
end

