-- ==== Sys2Proof/Machine/Ops.lean ====
section
/-!
DEFINITION. The operations every meaning is built from: the one home of each register, program-counter updates, the
stack, raising a fault, and the bytes at the program counter (spec/40_execution_engine.md).
-/

namespace Sys2Proof.Machine

/-- What one step or one meaning answers. -/
abbrev Result := Host.Outcome State Fault Refusal

/-! ## Registers and memory -/

/-- `V[x]` (spec/10_state.md R21: no register is hardwired, none has an alias). -/
def State.reg (s : State) (x : Reg) : Byte := s.v[x.val]

/-- `V[x] <- b`. -/
def State.setReg (s : State) (x : Reg) (b : Byte) : State := { s with v := s.v.set x.val b }

/-- `for j: V[j] <- bytes[j]`, from register `j` upwards (spec/43_index_memory.md R165). -/
def State.setRegs (s : State) (j : Nat) : List Byte → State
  | [] => s
  | b :: rest => State.setRegs (if h : j < 16 then s.setReg ⟨j, h⟩ b else s) (j + 1) rest

/-- `MEM[a]`. -/
def State.byte (s : State) (a : Nat) : Byte := Memory.read s.mem a

/-- `DISP[k]`, row-major, 64 wide: row `k / 64`, column `k % 64` (R30). -/
def Display.cell (d : Display) (k : Nat) : Bool := (d[k / Config.dispW]?.getD 0).getLsbD (k % Config.dispW)

/-- `DISP[k] <- DISP[k] ^ 1`. -/
def Display.flip (d : Display) (k : Nat) : Display :=
  if h : k / Config.dispW < 32 then d.set (k / Config.dispW) (d[k / Config.dispW] ^^^ BitVec.twoPow 64 (k % Config.dispW))
  else d

/-- The display with every cell 0. -/
def Display.clear : Display := Vector.replicate 32 0

/-- Cell `k` of the display. -/
def State.cell (s : State) (k : Nat) : Bool := Display.cell s.disp k

/-- Whether key `k` is pressed (R31). -/
def State.key (s : State) (k : Nat) : Bool := s.keys.getLsbD k

/-- `STACK[j]` (R26). -/
def State.entry (s : State) (j : Fin 16) : Word := s.stack[j.val]

/-! ## The program counter (R107) -/

/-- `PC <- (PC + 2) mod 65536`. -/
def State.advance (s : State) : State := { s with pc := s.pc + 2 }

/-- `PC <- (PC + 4) mod 65536` when the skip condition holds, else `(PC + 2) mod 65536`. -/
def State.skipIf (c : Bool) (s : State) : State := { s with pc := s.pc + (if c then 4 else 2) }

/-- `PC <- target`. -/
def State.jump (target : Word) (s : State) : State := { s with pc := target }

/-! ## Faults -/

/-- `raise Fault(K)` (R111, spec/60_exceptions.md R201): `STATE <- Halted(K)` is the one change; PC keeps the address of
the faulting instruction.  There is no vector, no saved register and no return: only `reset` leaves `Halted(K)` (R206),
Sys2Proof/Machine/HostOps.lean. -/
def raiseFault (k : FaultKind) (s : State) : Result := .next { s with state := .halted k }

/-! ## Fetch (R102) -/

/-- `op = MEM[PC] * 256 + MEM[PC+1]`. -/
def fetchWord (s : State) : Word := wordOfBytes (s.byte s.pc.toNat) (s.byte (s.pc.toNat + 1))

/-- Whether a step that finds this `STATE` fetches (R101). -/
def ExecState.fetches : ExecState → Bool
  | .running | .drawPending | .clearPending => true
  | .blocked _ | .paused | .halted _ => false

end Sys2Proof.Machine
end

