-- ==== Sys2Proof/Machine/Operands.lean ====
section
/-!
DEFINITION. Operand forms: immediate addresses, the address and the bytes an access through I touches, decimal digits,
the lowest pressed key, and the display cells a sprite covers.
-/

namespace Sys2Proof.Machine

/-- `zext_16(nnn)` (spec/30_encoding.md R73). -/
def zext16 (nnn : Addr12) : Word := nnn.setWidth 16

/-- The address of byte 0 of a transfer through I; byte j is at `I + j` on unbounded integers
(spec/43_index_memory.md, the one addressing mode). -/
def indexAddr (s : State) : Nat := s.i.toNat

/-- The last register of `Fx55` and `Fx65` is `Vx`: they move x + 1 bytes (R164, R165). -/
def blockLen (x : Reg) : Nat := x.val + 1

/-- `V[0], …, V[x]` (R164). -/
def blockRegs (s : State) (x : Reg) : List Byte := s.v.toList.take (blockLen x)

/-- Hundreds, tens, ones of a byte (R163). -/
def bcdDigits (b : Byte) : List Byte :=
  [BitVec.ofNat 8 (b.toNat / 100), BitVec.ofNat 8 (b.toNat / 10 % 10), BitVec.ofNat 8 (b.toNat % 10)]

/-- `min { k | KEYS[k] = 1 }`, if any key is pressed (R110, R193: "lowest key index wins on ties"). -/
def lowestKey (s : State) : Option Nat := (List.range Config.numKeys).find? fun k => s.key k

/-- Whether column `c` of a sprite row is set: bit `7 - c`, the most significant bit leftmost
(spec/44_display.md R181). -/
def spriteBit (row : Byte) (c : Nat) : Bool := row.getLsbD (7 - c)

/-- The display cells that the set pixels of one sprite row fall on, left to right; a pixel at column ≥ 64 or row ≥ 32
is dropped (R182). -/
def rowCells (px py : Nat) (row : Byte) : List Nat :=
  ((List.range 8).filter fun c => spriteBit row c && decide (px + c < Config.dispW) && decide (py < Config.dispH)).map
    fun c => py * Config.dispW + (px + c)

/-- The cells of a sprite's rows, top to bottom (R184's two loops). -/
def spriteCells (px : Nat) : Nat → List Byte → List Nat
  | _, [] => []
  | py, row :: rest => rowCells px py row ++ spriteCells px (py + 1) rest

/-- One pixel of R184's inner loop: a cell that holds 1 is a collision, and the cell is inverted. -/
def flipCell (d : Display × Bool) (k : Nat) : Display × Bool := (Display.flip d.1 k, d.2 || Display.cell d.1 k)

/-- R184's loops: the display and the collision flag after every set pixel. -/
def drawCells (disp : Display) (cells : List Nat) : Display × Bool := cells.foldl flipCell (disp, false)

end Sys2Proof.Machine
end

