-- ==== Sys2Proof/Machine/ControlFlow.lean ====
section
/-!
DEFINITION. Return, jumps, call and skips (spec/41_control_flow.md R120 to R127).
-/

namespace Sys2Proof.Machine

/-- `00EE` (R120). -/
def execRet (s : State) : Result :=
  if h : s.sp.val = 0 then raiseFault .stackUnderflow s
  else
    let target := s.entry ⟨s.sp.val - 1, by omega⟩ + 2
    .next (State.jump target { s with sp := ⟨s.sp.val - 1, by omega⟩ })

/-- `1nnn` (R121). -/
def execJp (nnn : Addr12) (s : State) : Result := .next (s.jump (zext16 nnn))

/-- `2nnn` (R122): the pushed value is the address of the call itself. -/
def execCall (nnn : Addr12) (s : State) : Result :=
  if h : s.sp.val = 16 then raiseFault .stackOverflow s
  else
    .next (State.jump (zext16 nnn)
      { s with stack := s.stack.set s.sp.val s.pc (by omega), sp := ⟨s.sp.val + 1, by omega⟩ })

/-- `3xnn` (R123). -/
def execSeImm (x : Reg) (nn : Byte) (s : State) : Result := .next (s.skipIf (s.reg x == nn))

/-- `4xnn` (R124). -/
def execSneImm (x : Reg) (nn : Byte) (s : State) : Result := .next (s.skipIf (s.reg x != nn))

/-- `5xy0` (R125). -/
def execSeReg (x y : Reg) (s : State) : Result := .next (s.skipIf (s.reg x == s.reg y))

/-- `9xy0` (R126). -/
def execSneReg (x y : Reg) (s : State) : Result := .next (s.skipIf (s.reg x != s.reg y))

/-- `Bnnn` (R127): always V0, never Vx. -/
def execJpV0 (nnn : Addr12) (s : State) : Result := .next (s.jump ((s.reg 0).setWidth 16 + zext16 nnn))

end Sys2Proof.Machine
end

