-- ==== Sys2Proof/Machine/Flags.lean ====
section
/-!
DEFINITION. The values written to VF as a flag (spec/10_state.md R22; spec/42_register_alu.md R146 to R150;
spec/44_display.md R184), and the order of the flag's and the result's write.
-/

namespace Sys2Proof.Machine

/-- 1 iff the condition holds. -/
def flagByte (c : Bool) : Byte := if c then 1 else 0

/-- Carry of `8xy4`: 1 iff the unbounded sum exceeds 255 (R146). -/
def carryFlag (a b : Byte) : Byte := flagByte (decide (a.toNat + b.toNat > 255))

/-- No-borrow of `a - b`: 1 iff `a ≥ b` (R147, R149). -/
def noBorrowFlag (a b : Byte) : Byte := flagByte (decide (a.toNat ≥ b.toNat))

/-- The bit `8xy6` shifts out: bit 0 before the shift (R148). -/
def lsbFlag (a : Byte) : Byte := a &&& 1

/-- The bit `8xyE` shifts out: bit 7 before the shift (R150). -/
def msbFlag (a : Byte) : Byte := (a >>> 7) &&& 1

/-- `V[15] <- flag`, then `V[x] <- result`: with x = F the result stays (spec/40_execution_engine.md R106). -/
def State.setFlagThenReg (s : State) (flag : Byte) (x : Reg) (result : Byte) : State :=
  (s.setReg vf flag).setReg x result

end Sys2Proof.Machine
end

