-- ==== Sys2Proof/Machine/Display.lean ====
section
/-!
DEFINITION. Display buffer instructions (spec/44_display.md R183, R184).
-/

namespace Sys2Proof.Machine

/-- `00E0` (R183). -/
def execCls (s : State) : Result := .next (State.advance { s with disp := Display.clear, state := .clearPending })

/-- The cells `Dxyn` inverts: the set pixels of the `n` bytes from `MEM[I]`, placed at column Vx and row Vy, less those
outside 64×32 (R181, R182). -/
def drwCells (x y : Reg) (n : Nat) (s : State) : List Nat :=
  spriteCells (s.reg x).toNat (s.reg y).toNat (Memory.readBytes s.mem (indexAddr s) n)

/-- `Dxyn` (R184): coordinates and rows are read before VF is written; with n = 0 no bound is checked. -/
def execDrw (x y : Reg) (n : Nat) (s : State) : Result :=
  if 0 < n ∧ inBounds (indexAddr s) n = false then raiseFault .memoryOutOfBounds s
  else
    let drawn := drawCells s.disp (drwCells x y n s)
    .next (State.advance { s.setReg vf (flagByte drawn.2) with disp := drawn.1, state := .drawPending })

end Sys2Proof.Machine
end

