-- ==== Sys2Proof/Machine/IndexMemory.lean ====
section
/-!
DEFINITION. The index register and memory transfer (spec/43_index_memory.md R160 to R165).  An access through I is
checked over its whole range before any byte moves, and never wraps (spec/20_memory.md R53).
-/

namespace Sys2Proof.Machine

/-- `Annn` (R160). -/
def execLdI (nnn : Addr12) (s : State) : Result := .next (State.advance { s with i := zext16 nnn })

/-- `Fx1E` (R161): wraps modulo 65536, no fault, VF not written. -/
def execAddI (x : Reg) (s : State) : Result := .next (State.advance { s with i := s.i + (s.reg x).setWidth 16 })

/-- `Fx29` (R162): Vx is used whole. -/
def execLdF (x : Reg) (s : State) : Result :=
  .next (State.advance { s with i := BitVec.ofNat 16 ((s.reg x).toNat * Config.glyphBytes) })

/-- Stores bytes from `MEM[I]` upwards, I unchanged, or faults when the range leaves memory. -/
def storeAtIndex (bytes : List Byte) (s : State) : Result :=
  if inBounds (indexAddr s) bytes.length then
    .next (State.advance { s with mem := Memory.writeBytes s.mem (indexAddr s) bytes })
  else raiseFault .memoryOutOfBounds s

/-- `Fx33` (R163). -/
def execLdB (x : Reg) (s : State) : Result := storeAtIndex (bcdDigits (s.reg x)) s

/-- `Fx55` (R164). -/
def execStoreRegs (x : Reg) (s : State) : Result := storeAtIndex (blockRegs s x) s

/-- `Fx65` (R165). -/
def execLoadRegs (x : Reg) (s : State) : Result :=
  if inBounds (indexAddr s) (blockLen x) then
    .next (s.setRegs 0 (Memory.readBytes s.mem (indexAddr s) (blockLen x))).advance
  else raiseFault .memoryOutOfBounds s

end Sys2Proof.Machine
end

