-- ==== Sys2Proof/Machine/KeysTimers.lean ====
section
/-!
DEFINITION. Key and timer instructions (spec/45_keys_timers.md R190 to R195) and the completion of a key wait
(spec/40_execution_engine.md R110).
-/

namespace Sys2Proof.Machine

/-- `Ex9E` (R190): the key index is the value of Vx. -/
def execSkp (x : Reg) (s : State) : Result :=
  if (s.reg x).toNat ≥ Config.numKeys then raiseFault .invalidKeyIndex s
  else .next (s.skipIf (s.key (s.reg x).toNat))

/-- `ExA1` (R191). -/
def execSknp (x : Reg) (s : State) : Result :=
  if (s.reg x).toNat ≥ Config.numKeys then raiseFault .invalidKeyIndex s
  else .next (s.skipIf (!s.key (s.reg x).toNat))

/-- `Fx07` (R192). -/
def execLdVxDt (x : Reg) (s : State) : Result := .next (s.setReg x s.dt).advance

/-- A key `k` ends the wait of register `x`: `V[x] <- k`, `STATE <- Running`, PC + 2 (R110, R193). -/
def takeKey (x : Reg) (k : Nat) (s : State) : State :=
  State.advance { s.setReg x (BitVec.ofNat 8 k) with state := .running }

/-- `Fx0A` (R193). -/
def execLdVxK (x : Reg) (s : State) : Result :=
  match lowestKey s with
  | none => .next { s with state := .blocked x }
  | some k => .next (takeKey x k s)

/-- A step that finds `STATE = Blocked(t)` (R110): it never fetches and never faults. -/
def completeWait (t : Reg) (s : State) : State :=
  match lowestKey s with
  | none => s
  | some k => takeKey t k s

/-- `Fx15` (R194). -/
def execLdDtVx (x : Reg) (s : State) : Result := .next (State.advance { s with dt := s.reg x })

/-- `Fx18` (R195). -/
def execLdStVx (x : Reg) (s : State) : Result := .next (State.advance { s with st := s.reg x })

end Sys2Proof.Machine
end

