-- ==== Sys2Proof/Machine/RegisterAlu.lean ====
section
/-!
DEFINITION. Register loads, arithmetic and logic (spec/42_register_alu.md R140 to R151).  Operands are read before any
write (spec/40_execution_engine.md R104); no instruction here can fault.
-/

namespace Sys2Proof.Machine

/-- `6xnn` (R140). -/
def execLdImm (x : Reg) (nn : Byte) (s : State) : Result := .next (s.setReg x nn).advance

/-- `7xnn` (R141): no carry is recorded. -/
def execAddImm (x : Reg) (nn : Byte) (s : State) : Result := .next (s.setReg x (s.reg x + nn)).advance

/-- `8xy0` (R142). -/
def execLdReg (x y : Reg) (s : State) : Result := .next (s.setReg x (s.reg y)).advance

/-- `8xy1` (R143): VF is not reset. -/
def execOrReg (x y : Reg) (s : State) : Result := .next (s.setReg x (s.reg x ||| s.reg y)).advance

/-- `8xy2` (R144). -/
def execAndReg (x y : Reg) (s : State) : Result := .next (s.setReg x (s.reg x &&& s.reg y)).advance

/-- `8xy3` (R145). -/
def execXorReg (x y : Reg) (s : State) : Result := .next (s.setReg x (s.reg x ^^^ s.reg y)).advance

/-- `8xy4` (R146). -/
def execAddReg (x y : Reg) (s : State) : Result :=
  .next (s.setFlagThenReg (carryFlag (s.reg x) (s.reg y)) x (s.reg x + s.reg y)).advance

/-- `8xy5` (R147). -/
def execSubReg (x y : Reg) (s : State) : Result :=
  .next (s.setFlagThenReg (noBorrowFlag (s.reg x) (s.reg y)) x (s.reg x - s.reg y)).advance

/-- `8xy6` (R148): Vx in place; the field y is not used (spec/30_encoding.md R80). -/
def execShr (x _y : Reg) (s : State) : Result :=
  .next (s.setFlagThenReg (lsbFlag (s.reg x)) x (s.reg x >>> 1)).advance

/-- `8xy7` (R149). -/
def execSubnReg (x y : Reg) (s : State) : Result :=
  .next (s.setFlagThenReg (noBorrowFlag (s.reg y) (s.reg x)) x (s.reg y - s.reg x)).advance

/-- `8xyE` (R150): Vx in place; the field y is not used. -/
def execShl (x _y : Reg) (s : State) : Result :=
  .next (s.setFlagThenReg (msbFlag (s.reg x)) x (s.reg x <<< 1)).advance

/-- `Cxnn` once the random byte `r` is given (R151). -/
def rndWith (r : Byte) (x : Reg) (nn : Byte) (s : State) : State := (s.setReg x (r &&& nn)).advance

/-- `Cxnn` (R151): each execution takes a fresh byte of the free input (log entry 2). -/
def execRnd (x : Reg) (nn : Byte) (s : State) : Result :=
  .next (rndWith (Config.rand s.draws) x nn { s with draws := s.draws + 1 })

end Sys2Proof.Machine
end

