-- ==== Sys2Proof/Machine/Engine.lean ====
section
/-!
DEFINITION. The execution engine's `step()` (spec/40_execution_engine.md R100 to R114) and where it fetches its next
instruction.  Sys2Proof/Machine/Step.lean gives both their fixed names.
-/

namespace Sys2Proof.Machine

/-- Fetch, decode, execute (R102, R103), on a state whose `STATE` fetches.  The one-shot signals revert to `Running`
before the instruction runs (R101); a fault discards the revert with everything else (R111). -/
def fetchExecute (s : State) : Result :=
  if s.pc.toNat + 1 ≥ Config.memSize then raiseFault .fetchOutOfBounds s
  else
    match decodeWord (fetchWord s) with
    | .error _ => raiseFault .unknownOpcode s
    | .ok i => exec i { s with state := .running }

/-- R114: a step first looks at `STATE` (R101). -/
def stepEngine (s : State) : Result :=
  match s.state with
  | .halted _ | .paused => .next s
  | .blocked t => .next (completeWait t s)
  | .running | .drawPending | .clearPending => fetchExecute s

/-- `s` with the word stored at the program counter, most significant byte first (spec/20_memory.md R55), so that the
next step fetches it: a `STATE` that does not fetch becomes `Running`, and a program counter from which no fetch is
possible becomes 0x200 (log entry 5). -/
def placeWord (s : State) (w : Word) : State :=
  let pc : Word := if s.pc.toNat + 1 ≥ Config.memSize then BitVec.ofNat 16 Config.progBase else s.pc
  { s with
    pc := pc
    mem := Memory.writeBytes s.mem pc.toNat (bytesOfWord w)
    state := if s.state.fetches then s.state else .running }

end Sys2Proof.Machine
end

