-- ==== Sys2Proof/Machine/Step.lean ====
section
/-!
DEFINITION. The fixed names of the machine's step and of the placing of its next instruction.
-/

namespace Sys2Proof.Machine

/-- `step()` (spec/40_execution_engine.md R114). -/
def step (s : State) : Host.Outcome State Fault Refusal := stepEngine s

/-- `s` with the instruction whose bits are `w` (every bit from `nbits` on being 0) where the next step fetches. -/
def State.withFetchWord (s : State) (nbits w : Nat) : State := placeWord s (BitVec.ofNat 16 (w % 2 ^ nbits))

end Sys2Proof.Machine
end

