-- ==== Sys2Proof/Machine/HostOps.lean ====
section
/-!
DEFINITION. The host's operations beside `step()` (spec/60_exceptions.md R210 to R220, spec/70_reset_and_hazards.md
R240 to R242), each one indivisible transaction (spec/20_memory.md R58).
-/

namespace Sys2Proof.Machine

/-! ## Timers -/

/-- A countdown: a timer at 0 stays at 0 (R210). -/
def countDown (b : Byte) : Byte := if b.toNat > 0 then b - 1 else b

/-- Whether the timers count in this `STATE`: "while not halted/paused" (R211). -/
def ExecState.counts : ExecState → Bool
  | .halted _ | .paused => false
  | .running | .blocked _ | .drawPending | .clearPending => true

/-- `tick()`: the new state and the beep output, which only a tick's step of ST from 1 to 0 pulses (R210, R212). -/
def tick (s : State) : State × Bool :=
  if s.state.counts then ({ s with dt := countDown s.dt, st := countDown s.st }, s.st.toNat > 0 && countDown s.st == 0)
  else (s, false)

/-! ## Inputs, pause and resume -/

/-- `set_keys(k)`: the only writer of KEYS, accepted in every `STATE` (R214). -/
def setKeys (k : BitVec 16) (s : State) : State := { s with keys := k }

/-- `pause()` (R217). -/
def pause (s : State) : State :=
  match s.state with
  | .running | .blocked _ | .drawPending | .clearPending => { s with saved := s.state, state := .paused }
  | .paused | .halted _ => s

/-- `resume()` (R218). -/
def resume (s : State) : State :=
  match s.state with
  | .paused => { s with state := s.saved }
  | .running | .blocked _ | .drawPending | .clearPending | .halted _ => s

/-! ## Reset -/

/-- Memory after `reset`: the font at 0x000 to 0x04F, the ROM bytes from 0x200, every other cell 0 (R240, R37). -/
def loadedMemory (font : Vector Byte 80) (rom : List Byte) : Memory :=
  Memory.writeBytes (Memory.writeBytes [] 0 font.toList) Config.progBase rom

/-- `reset(rom)` of a block whose `FONT_ROM` is `font` (R240): every state element takes its value of R37; a ROM longer
than 3584 bytes is refused with `Halted(LoadError)` and none of it is written (R241).  Only the model's own draw counter
goes on (log entry 2). -/
def hostReset (font : Vector Byte 80) (rom : List Byte) (s : State) : State :=
  if rom.length > Config.maxRom then
    { State.reset with mem := loadedMemory font [], state := .halted .loadError, draws := s.draws }
  else { State.reset with mem := loadedMemory font rom, draws := s.draws }

/-! ## The ports -/

/-- The code of a fault kind (spec/10_state.md R35). -/
def FaultKind.code : FaultKind → Nat
  | .fetchOutOfBounds => 1
  | .memoryOutOfBounds => 2
  | .stackOverflow => 3
  | .stackUnderflow => 4
  | .unknownOpcode => 5
  | .invalidKeyIndex => 6
  | .loadError => 7

/-- Field `TAG` of the status word (R34). -/
def ExecState.tag : ExecState → Nat
  | .running => 0
  | .blocked _ => 1
  | .drawPending => 2
  | .clearPending => 3
  | .paused => 4
  | .halted _ => 5

/-- Field `BLOCKED_REG` (R34). -/
def ExecState.blockedReg : ExecState → Nat
  | .blocked t => t.val
  | .running | .drawPending | .clearPending | .paused | .halted _ => 0

/-- Field `ERROR` (R34). -/
def ExecState.errorCode : ExecState → Nat
  | .halted k => k.code
  | .running | .blocked _ | .drawPending | .clearPending | .paused => 0

/-- The `STATUS` word: `TAG` in bits 2:0, `BLOCKED_REG` in bits 7:4, `ERROR` in bits 11:8, the rest 0 (R34, R216). -/
def statusWord (s : State) : Word :=
  BitVec.ofNat 16 (s.state.tag + s.state.blockedReg * 16 + s.state.errorCode * 256)

/-- The display port: the 2048 cells in index order (R215; spec/44_display.md R180). -/
def displaySnapshot (s : State) : List Bool := (List.range Config.dispCells).map s.cell

/-! ## The transactions (R220) -/

/-- What the host sends. -/
inductive HostOp where
  | reset (font : Vector Byte 80) (rom : List Byte)
  | step
  | tick
  | setKeys (k : BitVec 16)
  | pause
  | resume
  | readDisplay
  | readStatus
deriving DecidableEq, Repr

/-- What the host gets back. -/
inductive Reply where
  | nothing
  | state (e : ExecState)
  | beep (b : Bool)
  | display (cells : List Bool)
  | status (w : Word)
deriving DecidableEq, Repr

/-- One transaction: the next state and the reply (R220; R109 for the reply of a step). -/
def transact (op : HostOp) (s : State) : Host.Outcome (State × Reply) Fault Refusal :=
  match op with
  | .reset font rom => let t := hostReset font rom s; .next (t, .status (statusWord t))
  | .step =>
    match step s with
    | .next t => .next (t, .state t.state)
    | .fault r => .fault r
    | .refused r => .refused r
  | .tick => .next ((tick s).1, .beep (tick s).2)
  | .setKeys k => .next (setKeys k s, .nothing)
  | .pause => .next (pause s, .nothing)
  | .resume => .next (resume s, .nothing)
  | .readDisplay => .next (s, .display (displaySnapshot s))
  | .readStatus => .next (s, .status (statusWord s))

end Sys2Proof.Machine
end

