-- ==== Sys2Proof/Safety.lean ====
section
/-!
DEFINITION. The terms in which claims about the machine are stated: what an instruction leaves unchanged, which faults it
can take, which registers it touches, the invariant of every reachable state, and the words of the spec's encodings.
-/

namespace Sys2Proof.Machine

/-! ## Frames -/

/-- The parts of the state that some instruction writes, general registers and the program counter apart. -/
inductive Part where
  | memory
  | index
  | stack
  | delayTimer
  | soundTimer
  | display
  | state
  | draws
deriving DecidableEq, Repr

/-- `t` is `s` but for the general registers `regs`, the parts `parts` and the program counter.  KEYS and SAVED are
written by no instruction (spec/10_state.md R31, R33). -/
structure Frame (regs : List Reg) (parts : List Part) (s t : State) : Prop where
  registers : ∀ r, r ∉ regs → t.reg r = s.reg r
  memory : .memory ∉ parts → ∀ a, t.byte a = s.byte a
  index : .index ∉ parts → t.i = s.i
  stack : .stack ∉ parts → t.sp = s.sp ∧ ∀ j, t.entry j = s.entry j
  delayTimer : .delayTimer ∉ parts → t.dt = s.dt
  soundTimer : .soundTimer ∉ parts → t.st = s.st
  display : .display ∉ parts → ∀ k, t.cell k = s.cell k
  state : .state ∉ parts → t.state = s.state
  draws : .draws ∉ parts → t.draws = s.draws
  keys : t.keys = s.keys
  saved : t.saved = s.saved

/-- PC moves on by `d` modulo 65536 (spec/40_execution_engine.md R107). -/
def PcPlus (d : Nat) (s t : State) : Prop := t.pc.toNat = (s.pc.toNat + d) % 65536

/-! ## The words of the spec's encodings -/

/-- `base | nnn`. -/
def wordA (base : Word) (nnn : Addr12) : Word := base ||| nnn.setWidth 16

/-- `base | x << 8`. -/
def wordX (base : Word) (x : Reg) : Word := base ||| (BitVec.ofNat 16 x.val <<< 8)

/-- `base | x << 8 | nn`. -/
def wordXI (base : Word) (x : Reg) (nn : Byte) : Word := wordX base x ||| nn.setWidth 16

/-- `base | x << 8 | y << 4`. -/
def wordXY (base : Word) (x y : Reg) : Word := wordX base x ||| (BitVec.ofNat 16 y.val <<< 4)

/-- `base | x << 8 | y << 4 | n`. -/
def wordXYN (base : Word) (x y : Reg) (n : Nat) : Word := wordXY base x y ||| BitVec.ofNat 16 n

/-! ## Which faults an instruction can take -/

/-- The instruction's own check (spec/60_exceptions.md R200): the fault it takes in `s`, if any. -/
def faultCause (i : Instr) (s : State) : Option FaultKind :=
  match i with
  | .ret => if s.sp.val = 0 then some .stackUnderflow else none
  | .call _ => if s.sp.val = 16 then some .stackOverflow else none
  | .skp x | .sknp x => if (s.reg x).toNat ≥ 16 then some .invalidKeyIndex else none
  | .drw _ _ n => if 0 < n ∧ s.i.toNat + n - 1 ≥ 4096 then some .memoryOutOfBounds else none
  | .ldB _ => if s.i.toNat + 2 ≥ 4096 then some .memoryOutOfBounds else none
  | .storeRegs x | .loadRegs x => if s.i.toNat + x.val ≥ 4096 then some .memoryOutOfBounds else none
  | .cls | .jp _ | .seImm _ _ | .sneImm _ _ | .seReg _ _ | .sneReg _ _ | .ldImm _ _ | .addImm _ _ | .ldReg _ _
  | .orReg _ _ | .andReg _ _ | .xorReg _ _ | .addReg _ _ | .subReg _ _ | .shr _ _ | .subnReg _ _ | .shl _ _ | .ldI _
  | .jpV0 _ | .rnd _ _ | .ldVxDt _ | .ldVxK _ | .ldDtVx _ | .ldStVx _ | .addI _ | .ldF _ => none

/-! ## Which general registers an instruction touches (spec/10_state.md R23) -/

/-- The registers `V0` to `Vx`. -/
def regsUpTo (x : Reg) : List Reg := (List.finRange 16).filter fun r => decide (r ≤ x)

/-- Column "reads" of R23. -/
def regsRead : Instr → List Reg
  | .seImm x _ | .sneImm x _ | .skp x | .sknp x | .ldDtVx x | .ldStVx x | .addI x | .ldF x | .ldB x => [x]
  | .seReg x y | .sneReg x y => [x, y]
  | .ldImm _ _ | .rnd _ _ | .ldVxDt _ | .ldVxK _ => []
  | .addImm x _ => [x]
  | .ldReg _ y => [y]
  | .orReg x y | .andReg x y | .xorReg x y => [x, y]
  | .addReg x y | .subReg x y | .subnReg x y => [x, y]
  | .shr x _ | .shl x _ => [x]
  | .jpV0 _ => [0]
  | .drw x y _ => [x, y]
  | .storeRegs x => regsUpTo x
  | .loadRegs _ => []
  | .cls | .ret | .jp _ | .call _ | .ldI _ => []

/-- Column "writes" of R23. -/
def regsWritten : Instr → List Reg
  | .seImm _ _ | .sneImm _ _ | .skp _ | .sknp _ | .ldDtVx _ | .ldStVx _ | .addI _ | .ldF _ | .ldB _ => []
  | .seReg _ _ | .sneReg _ _ => []
  | .ldImm x _ | .rnd x _ | .ldVxDt x | .ldVxK x => [x]
  | .addImm x _ => [x]
  | .ldReg x _ => [x]
  | .orReg x _ | .andReg x _ | .xorReg x _ => [x]
  | .addReg x _ | .subReg x _ | .subnReg x _ => [vf, x]
  | .shr x _ | .shl x _ => [vf, x]
  | .jpV0 _ => []
  | .drw _ _ _ => [vf]
  | .storeRegs _ => []
  | .loadRegs x => regsUpTo x
  | .cls | .ret | .jp _ | .call _ | .ldI _ => []

/-! ## Which memory an instruction writes (spec/20_memory.md R57) -/

/-- Column "writes" of R57: address `a` is among the bytes that `i` stores to in `s`. -/
def storesTo (i : Instr) (s : State) (a : Nat) : Prop :=
  match i with
  | .ldB _ => s.i.toNat ≤ a ∧ a ≤ s.i.toNat + 2
  | .storeRegs x => s.i.toNat ≤ a ∧ a ≤ s.i.toNat + x.val
  | .cls | .ret | .jp _ | .call _ | .seImm _ _ | .sneImm _ _ | .seReg _ _ | .sneReg _ _ | .ldImm _ _ | .addImm _ _
  | .ldReg _ _ | .orReg _ _ | .andReg _ _ | .xorReg _ _ | .addReg _ _ | .subReg _ _ | .shr _ _ | .subnReg _ _
  | .shl _ _ | .ldI _ | .jpV0 _ | .rnd _ _ | .drw _ _ _ | .skp _ | .sknp _ | .ldVxDt _ | .ldVxK _ | .ldDtVx _
  | .ldStVx _ | .addI _ | .ldF _ | .loadRegs _ => False

/-! ## PC and STATE after an instruction that does not fault -/

/-- Some key is pressed. -/
def AnyKey (s : State) : Prop := ∃ k, k < 16 ∧ s.key k = true

/-- `k` is the lowest pressed key (R110). -/
def LowestKey (s : State) (k : Nat) : Prop := k < 16 ∧ s.key k = true ∧ ∀ j, j < k → s.key j = false

/-- R107's table: the new PC after a successful `i`, on the state before it. -/
def PcAfter (i : Instr) (s : State) (pc : Nat) : Prop :=
  match i with
  | .jp nnn | .call nnn => pc = nnn.toNat
  | .jpV0 nnn => pc = ((s.reg 0).toNat + nnn.toNat) % 65536
  | .ret => ∀ j : Fin 16, j.val + 1 = s.sp.val → pc = ((s.entry j).toNat + 2) % 65536
  | .seImm x nn => pc = (s.pc.toNat + if s.reg x = nn then 4 else 2) % 65536
  | .sneImm x nn => pc = (s.pc.toNat + if s.reg x ≠ nn then 4 else 2) % 65536
  | .seReg x y => pc = (s.pc.toNat + if s.reg x = s.reg y then 4 else 2) % 65536
  | .sneReg x y => pc = (s.pc.toNat + if s.reg x ≠ s.reg y then 4 else 2) % 65536
  | .skp x => pc = (s.pc.toNat + if s.key (s.reg x).toNat = true then 4 else 2) % 65536
  | .sknp x => pc = (s.pc.toNat + if s.key (s.reg x).toNat = false then 4 else 2) % 65536
  | .ldVxK _ => (¬ AnyKey s → pc = s.pc.toNat) ∧ (AnyKey s → pc = (s.pc.toNat + 2) % 65536)
  | .cls | .ldImm _ _ | .addImm _ _ | .ldReg _ _ | .orReg _ _ | .andReg _ _ | .xorReg _ _ | .addReg _ _ | .subReg _ _
  | .shr _ _ | .subnReg _ _ | .shl _ _ | .ldI _ | .rnd _ _ | .drw _ _ _ | .ldVxDt _ | .ldDtVx _ | .ldStVx _ | .addI _
  | .ldF _ | .ldB _ | .storeRegs _ | .loadRegs _ => pc = (s.pc.toNat + 2) % 65536

/-- R108: STATE after a successful `i` that ran with `STATE = Running`. -/
def StateAfter (i : Instr) (s : State) (e : ExecState) : Prop :=
  match i with
  | .cls => e = .clearPending
  | .drw _ _ _ => e = .drawPending
  | .ldVxK x => (¬ AnyKey s → e = .blocked x) ∧ (AnyKey s → e = .running)
  | .ret | .jp _ | .call _ | .seImm _ _ | .sneImm _ _ | .seReg _ _ | .sneReg _ _ | .ldImm _ _ | .addImm _ _ | .ldReg _ _
  | .orReg _ _ | .andReg _ _ | .xorReg _ _ | .addReg _ _ | .subReg _ _ | .shr _ _ | .subnReg _ _ | .shl _ _ | .ldI _
  | .jpV0 _ | .rnd _ _ | .skp _ | .sknp _ | .ldVxDt _ | .ldDtVx _ | .ldStVx _ | .addI _ | .ldF _ | .ldB _
  | .storeRegs _ | .loadRegs _ => e = .running

/-! ## Sprites -/

/-- The sprite of `n` rows at `MEM[I]`, placed at column `px` and row `py`, has a set pixel on the display cell of
column `col` and row `row` (spec/44_display.md R181, R182). -/
def SpriteCovers (s : State) (px py n col row : Nat) : Prop :=
  px ≤ col ∧ col < px + 8 ∧ py ≤ row ∧ row < py + n ∧
    (s.byte (s.i.toNat + (row - py))).getLsbD (7 - (col - px)) = true

/-! ## The transitions of STATE -/

/-- The table of spec/40_execution_engine.md R115: what `STATE` becomes under each operation, from each `STATE`. -/
def Transition (op : HostOp) (s t : State) : Prop :=
  match op with
  | .step =>
    match s.state with
    | .running | .drawPending | .clearPending =>
      t.state = .running ∨ (∃ k, t.state = .halted k) ∨
      (t.state = .clearPending ∧ decodeWord (fetchWord s) = .ok .cls) ∨
      (t.state = .drawPending ∧ ∃ x y n, decodeWord (fetchWord s) = .ok (.drw x y n)) ∨
      ∃ x, t.state = .blocked x ∧ decodeWord (fetchWord s) = .ok (.ldVxK x) ∧ ¬ AnyKey s
    | .blocked x => (¬ AnyKey s ∧ t.state = .blocked x) ∨ (AnyKey s ∧ t.state = .running)
    | .paused | .halted _ => t = s
  | .pause =>
    match s.state with
    | .running | .blocked _ | .drawPending | .clearPending => t.state = .paused ∧ t.saved = s.state
    | .paused | .halted _ => t = s
  | .resume =>
    match s.state with
    | .paused => t.state = s.saved
    | .running | .blocked _ | .drawPending | .clearPending | .halted _ => t = s
  | .tick | .setKeys _ | .readDisplay | .readStatus => t.state = s.state ∧ t.saved = s.saved
  | .reset _ rom => t.state = if rom.length ≤ 3584 then .running else .halted .loadError

/-! ## The invariant of every reachable state -/

/-- The core waits at an `Fx0A`: PC is in bounds and the word there is the `Fx0A` of register `t` (R110). -/
def WaitsAt (s : State) (t : Reg) : Prop :=
  s.pc.toNat + 1 < 4096 ∧ decodeWord (fetchWord s) = .ok (.ldVxK t)

/-- What every reachable state keeps. -/
structure Inv (s : State) : Prop where
  /-- memory is in its canonical form -/
  memory : Memory.wf s.mem
  /-- SAVED is a state from which `pause` is possible (spec/60_exceptions.md R217) -/
  saved : s.saved.counts = true
  /-- PC is at most 0xFF + 0xFFF, so that no PC arithmetic ever wraps (R107) -/
  pcBound : s.pc.toNat ≤ 4350
  /-- a stack entry is a fetched PC (R107) -/
  stackBound : ∀ j, (s.entry j).toNat ≤ 4094
  /-- while Blocked(t), PC points at the waiting `Fx0A` (R32, R110) -/
  blocked : ∀ t, s.state = .blocked t → WaitsAt s t
  /-- and so it does while the wait is paused (R218) -/
  pausedWait : ∀ t, s.state = .paused → s.saved = .blocked t → WaitsAt s t

end Sys2Proof.Machine
end

