-- ==== Sys2Proof/Certificates/Slice0/Obligations.lean ====
section
/-!
DEFINITION. The statements about the model, one per claim; OBLIGATIONS.json lists them.  A result statement has the
answer `.next t` of `exec` as its conclusion, with `t`'s registers, flags, PC and frame.
-/

open Sys2Proof Sys2Proof.Machine

/-! ## Encoding (spec/30_encoding.md) -/

/-- R72, R73, R84: decoding the bytes of a well-formed instruction's word gives the instruction back, every operand kept;
the bytes after it are left. -/
def Obligations.DecodeOfEncodeIsTheInstruction : Prop :=
  ∀ (i : Instr) (rest : List Byte), WellFormed i = true → decode (bytesOfWord (encode i) ++ rest) = .ok (i, rest)

/-- R80, R81: a word that decodes is the encoding of the instruction it decodes to, which is well-formed; so no two words
are one instruction, and the ignored field `y` of the shifts is kept. -/
def Obligations.DecodedWordIsItsEncoding : Prop :=
  ∀ (w : Word) (i : Instr), decodeWord w = .ok i → WellFormed i = true ∧ encode i = w

/-- R84: a word is a row's instruction iff `w & mask == match`; there are 34 rows and every decoded instruction stands in
one of them. -/
def Obligations.WordDecodesByItsOpcodeRow : Prop :=
  opcodeRows.length = 34 ∧
  (∀ (w : Word) (r : OpRow), r ∈ opcodeRows → (w &&& r.mask = r.value ↔ ∃ i, decodeWord w = .ok i ∧ rowOf i = r)) ∧
  ∀ (w : Word) (i : Instr), decodeWord w = .ok i → rowOf i ∈ opcodeRows

/-- R75 to R79, R81: exactly the words whose selector names no instruction are rejected, with their own word. -/
def Obligations.IllegalWordsAreTheUnknownSelectors : Prop :=
  ∀ w : Word, decodeWord w = .error (.unknownOpcode w) ↔
    (w.toNat / 4096 = 0 ∧ w.toNat ≠ 0x00E0 ∧ w.toNat ≠ 0x00EE) ∨
    ((w.toNat / 4096 = 5 ∨ w.toNat / 4096 = 9) ∧ w.toNat % 16 ≠ 0) ∨
    (w.toNat / 4096 = 8 ∧ 8 ≤ w.toNat % 16 ∧ w.toNat % 16 ≠ 0xE) ∨
    (w.toNat / 4096 = 14 ∧ w.toNat % 256 ≠ 0x9E ∧ w.toNat % 256 ≠ 0xA1) ∨
    (w.toNat / 4096 = 15 ∧ w.toNat % 256 ∉ [0x07, 0x0A, 0x15, 0x18, 0x1E, 0x29, 0x33, 0x55, 0x65])

/-- R84, spec/95_test_vectors.md: words written out from the encodings decode to the instructions they stand for. -/
def Obligations.SampleWordsDecode : Prop :=
  decodeWord 0x00E0 = .ok .cls ∧ decodeWord 0x2400 = .ok (.call 0x400) ∧ decodeWord 0x321A = .ok (.seImm 2 0x1A) ∧
  decodeWord 0x8124 = .ok (.addReg 1 2) ∧ decodeWord 0xA123 = .ok (.ldI 0x123) ∧ decodeWord 0xD125 = .ok (.drw 1 2 5) ∧
  decodeWord 0xE5A1 = .ok (.sknp 5) ∧ decodeWord 0xFA33 = .ok (.ldB 10) ∧
  decodeWord 0x01E0 = .error (.unknownOpcode 0x01E0) ∧ decodeWord 0x5121 = .error (.unknownOpcode 0x5121)

/-! ## Control transfer (spec/41_control_flow.md) -/

/-- R120. -/
def Obligations.RetReturnsBehindTheCall : Prop :=
  decodeWord 0x00EE = .ok .ret ∧
  ∀ s : State,
    (s.sp.val = 0 → exec .ret s = .next { s with state := .halted .stackUnderflow }) ∧
    ∀ j : Fin 16, s.sp.val = j.val + 1 →
      ∃ t, exec .ret s = .next t ∧ t.sp.val = j.val ∧ t.pc.toNat = ((s.entry j).toNat + 2) % 65536 ∧
        (∀ k, t.entry k = s.entry k) ∧ Frame [] [.stack] s t

/-- R121, with its corner cases: a jump to 0xFFF succeeds and the next fetch faults; at 0xFFE the last two bytes are read. -/
def Obligations.JpJumpsToItsAddress : Prop :=
  ∀ (nnn : Addr12) (s : State), decodeWord (wordA 0x1000 nnn) = .ok (.jp nnn) ∧
    ∃ t, exec (.jp nnn) s = .next t ∧ t.pc.toNat = nnn.toNat ∧ Frame [] [] s t ∧
      (nnn = 0xFFF → s.state = .running → step t = .next { t with state := .halted .fetchOutOfBounds }) ∧
      (nnn = 0xFFE → (fetchWord t).toNat = (t.byte 0xFFE).toNat * 256 + (t.byte 0xFFF).toNat)

/-- R122. -/
def Obligations.CallPushesItsOwnAddress : Prop :=
  ∀ (nnn : Addr12) (s : State), decodeWord (wordA 0x2000 nnn) = .ok (.call nnn) ∧
    (s.sp.val = 16 → exec (.call nnn) s = .next { s with state := .halted .stackOverflow }) ∧
    ∀ j : Fin 16, s.sp.val = j.val →
      ∃ t, exec (.call nnn) s = .next t ∧ t.entry j = s.pc ∧ t.sp.val = j.val + 1 ∧ t.pc.toNat = nnn.toNat ∧
        (∀ k, k ≠ j → t.entry k = s.entry k) ∧ Frame [] [.stack] s t

/-- R123, R124. -/
def Obligations.ImmediateSkips : Prop :=
  ∀ (x : Reg) (nn : Byte) (s : State),
    decodeWord (wordXI 0x3000 x nn) = .ok (.seImm x nn) ∧ decodeWord (wordXI 0x4000 x nn) = .ok (.sneImm x nn) ∧
    (∃ t, exec (.seImm x nn) s = .next t ∧ PcPlus (if (s.reg x).toNat = nn.toNat then 4 else 2) s t ∧ Frame [] [] s t) ∧
    (∃ t, exec (.sneImm x nn) s = .next t ∧ PcPlus (if (s.reg x).toNat ≠ nn.toNat then 4 else 2) s t ∧ Frame [] [] s t)

/-- R125, R126. -/
def Obligations.RegisterSkips : Prop :=
  ∀ (x y : Reg) (s : State),
    decodeWord (wordXY 0x5000 x y) = .ok (.seReg x y) ∧ decodeWord (wordXY 0x9000 x y) = .ok (.sneReg x y) ∧
    (∃ t, exec (.seReg x y) s = .next t ∧ PcPlus (if (s.reg x).toNat = (s.reg y).toNat then 4 else 2) s t ∧
      Frame [] [] s t) ∧
    (∃ t, exec (.sneReg x y) s = .next t ∧ PcPlus (if (s.reg x).toNat ≠ (s.reg y).toNat then 4 else 2) s t ∧
      Frame [] [] s t)

/-- R127: the sum never wraps; a target of 4095 or more faults at the next fetch. -/
def Obligations.ComputedJumpAddsV0 : Prop :=
  ∀ (nnn : Addr12) (s : State), decodeWord (wordA 0xB000 nnn) = .ok (.jpV0 nnn) ∧
    ∃ t, exec (.jpV0 nnn) s = .next t ∧ t.pc.toNat = ((s.reg 0).toNat + nnn.toNat) % 65536 ∧
      t.pc.toNat = (s.reg 0).toNat + nnn.toNat ∧ Frame [] [] s t ∧
      ((s.reg 0).toNat + nnn.toNat ≥ 4095 → s.state = .running →
        step t = .next { t with state := .halted .fetchOutOfBounds })

/-- R250: a jump to its own address changes nothing. -/
def Obligations.SelfJumpChangesNothing : Prop :=
  ∀ (nnn : Addr12) (s : State), s.state = .running → s.pc.toNat = nnn.toNat → nnn.toNat < 4095 →
    fetchWord s = wordA 0x1000 nnn → step s = .next s

/-! ## Register loads, arithmetic and logic (spec/42_register_alu.md) -/

/-- R140, R142. -/
def Obligations.LoadsWriteVx : Prop :=
  ∀ (x y : Reg) (nn : Byte) (s : State),
    decodeWord (wordXI 0x6000 x nn) = .ok (.ldImm x nn) ∧ decodeWord (wordXY 0x8000 x y) = .ok (.ldReg x y) ∧
    (∃ t, exec (.ldImm x nn) s = .next t ∧ t.reg x = nn ∧ PcPlus 2 s t ∧ Frame [x] [] s t) ∧
    (∃ t, exec (.ldReg x y) s = .next t ∧ t.reg x = s.reg y ∧ PcPlus 2 s t ∧ Frame [x] [] s t)

/-- R141: no carry is recorded; with x = F, VF receives the sum. -/
def Obligations.AddImmediateWraps : Prop :=
  ∀ (x : Reg) (nn : Byte) (s : State), decodeWord (wordXI 0x7000 x nn) = .ok (.addImm x nn) ∧
    ∃ t, exec (.addImm x nn) s = .next t ∧ (t.reg x).toNat = ((s.reg x).toNat + nn.toNat) % 256 ∧ PcPlus 2 s t ∧
      Frame [x] [] s t

/-- R143, R144, R145: bit by bit; VF is not written unless x = F. -/
def Obligations.LogicIsBitwiseAndLeavesVF : Prop :=
  ∀ (x y : Reg) (s : State),
    decodeWord (wordXY 0x8001 x y) = .ok (.orReg x y) ∧ decodeWord (wordXY 0x8002 x y) = .ok (.andReg x y) ∧
    decodeWord (wordXY 0x8003 x y) = .ok (.xorReg x y) ∧
    (∃ t, exec (.orReg x y) s = .next t ∧ PcPlus 2 s t ∧ Frame [x] [] s t ∧
      ∀ k, k < 8 → (t.reg x).getLsbD k = ((s.reg x).getLsbD k || (s.reg y).getLsbD k)) ∧
    (∃ t, exec (.andReg x y) s = .next t ∧ PcPlus 2 s t ∧ Frame [x] [] s t ∧
      ∀ k, k < 8 → (t.reg x).getLsbD k = ((s.reg x).getLsbD k && (s.reg y).getLsbD k)) ∧
    (∃ t, exec (.xorReg x y) s = .next t ∧ PcPlus 2 s t ∧ Frame [x] [] s t ∧
      ∀ k, k < 8 → (t.reg x).getLsbD k = ((s.reg x).getLsbD k != (s.reg y).getLsbD k))

/-- R146: with x = F the sum stays in VF and the carry is lost. -/
def Obligations.AddSetsCarry : Prop :=
  ∀ (x y : Reg) (s : State), decodeWord (wordXY 0x8004 x y) = .ok (.addReg x y) ∧
    ∃ t, exec (.addReg x y) s = .next t ∧ (t.reg x).toNat = ((s.reg x).toNat + (s.reg y).toNat) % 256 ∧
      (x ≠ 15 → (t.reg 15).toNat = if (s.reg x).toNat + (s.reg y).toNat > 255 then 1 else 0) ∧
      PcPlus 2 s t ∧ Frame [15, x] [] s t

/-- R147, R149: VF is 1 iff no borrow occurs, equality included; with x = F the difference stays. -/
def Obligations.SubtractionsSetNoBorrow : Prop :=
  ∀ (x y : Reg) (s : State),
    decodeWord (wordXY 0x8005 x y) = .ok (.subReg x y) ∧ decodeWord (wordXY 0x8007 x y) = .ok (.subnReg x y) ∧
    (∃ t, exec (.subReg x y) s = .next t ∧ (t.reg x).toNat = ((s.reg x).toNat + 256 - (s.reg y).toNat) % 256 ∧
      (x ≠ 15 → (t.reg 15).toNat = if (s.reg x).toNat ≥ (s.reg y).toNat then 1 else 0) ∧
      PcPlus 2 s t ∧ Frame [15, x] [] s t) ∧
    (∃ t, exec (.subnReg x y) s = .next t ∧ (t.reg x).toNat = ((s.reg y).toNat + 256 - (s.reg x).toNat) % 256 ∧
      (x ≠ 15 → (t.reg 15).toNat = if (s.reg y).toNat ≥ (s.reg x).toNat then 1 else 0) ∧
      PcPlus 2 s t ∧ Frame [15, x] [] s t)

/-- R148, R150: Vx is shifted in place by one, Vy is not used; with x = F the result stays. -/
def Obligations.ShiftsMoveOneBitToVF : Prop :=
  ∀ (x y : Reg) (s : State),
    decodeWord (wordXY 0x8006 x y) = .ok (.shr x y) ∧ decodeWord (wordXY 0x800E x y) = .ok (.shl x y) ∧
    (∃ t, exec (.shr x y) s = .next t ∧ (t.reg x).toNat = (s.reg x).toNat / 2 ∧
      (x ≠ 15 → (t.reg 15).toNat = (s.reg x).toNat % 2) ∧ PcPlus 2 s t ∧ Frame [15, x] [] s t) ∧
    (∃ t, exec (.shl x y) s = .next t ∧ (t.reg x).toNat = (s.reg x).toNat * 2 % 256 ∧
      (x ≠ 15 → (t.reg 15).toNat = (s.reg x).toNat / 128) ∧ PcPlus 2 s t ∧ Frame [15, x] [] s t)

/-- R151: the byte written is the random byte masked by nn, whatever the random byte is; nn = 0 writes 0.  `draws` is the
model's own counter (log entry 2). -/
def Obligations.RandomByteIsMasked : Prop :=
  ∀ (x : Reg) (nn : Byte) (s : State), decodeWord (wordXI 0xC000 x nn) = .ok (.rnd x nn) ∧
    ∃ t, exec (.rnd x nn) s = .next t ∧ (∀ k, (t.reg x).getLsbD k = ((Config.rand s.draws).getLsbD k && nn.getLsbD k)) ∧
      (nn = 0 → t.reg x = 0) ∧ (nn = 0xFF → t.reg x = Config.rand s.draws) ∧ t.draws = s.draws + 1 ∧
      PcPlus 2 s t ∧ Frame [x] [.draws] s t

/-! ## Index register and memory transfer (spec/43_index_memory.md) -/

/-- R160, R161, R162. -/
def Obligations.IndexRegisterWrites : Prop :=
  ∀ (nnn : Addr12) (x : Reg) (s : State),
    decodeWord (wordA 0xA000 nnn) = .ok (.ldI nnn) ∧ decodeWord (wordX 0xF01E x) = .ok (.addI x) ∧
    decodeWord (wordX 0xF029 x) = .ok (.ldF x) ∧
    (∃ t, exec (.ldI nnn) s = .next t ∧ t.i.toNat = nnn.toNat ∧ PcPlus 2 s t ∧ Frame [] [.index] s t) ∧
    (∃ t, exec (.addI x) s = .next t ∧ t.i.toNat = (s.i.toNat + (s.reg x).toNat) % 65536 ∧ PcPlus 2 s t ∧
      Frame [] [.index] s t) ∧
    (∃ t, exec (.ldF x) s = .next t ∧ t.i.toNat = (s.reg x).toNat * 5 ∧ PcPlus 2 s t ∧ Frame [] [.index] s t)

/-- R163: the three digits at I, I+1, I+2, every other byte unchanged; a fault changes nothing but STATE. -/
def Obligations.DecimalDigitsAreStored : Prop :=
  ∀ (x : Reg) (s : State), decodeWord (wordX 0xF033 x) = .ok (.ldB x) ∧
    (s.i.toNat + 2 ≥ 4096 → exec (.ldB x) s = .next { s with state := .halted .memoryOutOfBounds }) ∧
    (s.i.toNat + 2 < 4096 →
      ∃ t, exec (.ldB x) s = .next t ∧ (t.byte s.i.toNat).toNat = (s.reg x).toNat / 100 ∧
        (t.byte (s.i.toNat + 1)).toNat = (s.reg x).toNat / 10 % 10 ∧
        (t.byte (s.i.toNat + 2)).toNat = (s.reg x).toNat % 10 ∧
        (∀ a, a < s.i.toNat ∨ s.i.toNat + 2 < a → t.byte a = s.byte a) ∧ PcPlus 2 s t ∧ Frame [] [.memory] s t)

/-- R164. -/
def Obligations.RegistersAreStored : Prop :=
  ∀ (x : Reg) (s : State), decodeWord (wordX 0xF055 x) = .ok (.storeRegs x) ∧
    (s.i.toNat + x.val ≥ 4096 → exec (.storeRegs x) s = .next { s with state := .halted .memoryOutOfBounds }) ∧
    (s.i.toNat + x.val < 4096 →
      ∃ t, exec (.storeRegs x) s = .next t ∧ (∀ j : Reg, j ≤ x → t.byte (s.i.toNat + j.val) = s.reg j) ∧
        (∀ a, a < s.i.toNat ∨ s.i.toNat + x.val < a → t.byte a = s.byte a) ∧ PcPlus 2 s t ∧ Frame [] [.memory] s t)

/-- R165, its last sentence included: a store and then a load with the same I and x give V0..Vx back, whatever the registers
were changed to between. -/
def Obligations.RegistersAreLoaded : Prop :=
  ∀ (x : Reg) (s : State), decodeWord (wordX 0xF065 x) = .ok (.loadRegs x) ∧
    (s.i.toNat + x.val ≥ 4096 → exec (.loadRegs x) s = .next { s with state := .halted .memoryOutOfBounds }) ∧
    (s.i.toNat + x.val < 4096 →
      ∃ t, exec (.loadRegs x) s = .next t ∧ (∀ j : Reg, j ≤ x → t.reg j = s.byte (s.i.toNat + j.val)) ∧
        (∀ j : Reg, x < j → t.reg j = s.reg j) ∧ PcPlus 2 s t ∧ Frame (regsUpTo x) [] s t) ∧
    ∀ (t : State) (v : Vector Byte 16), s.i.toNat + x.val < 4096 → exec (.storeRegs x) s = .next t →
      ∃ u, exec (.loadRegs x) { t with v := v } = .next u ∧ u.i = s.i ∧ ∀ j : Reg, j ≤ x → u.reg j = s.reg j

/-- R63, R245: bytes that `Fx55` stored are what a later fetch from there reads, with nothing in between (the spec marks this
as derived from R60 and R102). -/
def Obligations.StoredBytesAreFetched : Prop :=
  ∀ (x j j' : Reg) (s t u : State), s.i.toNat + x.val < 4096 → j'.val = j.val + 1 → j' ≤ x →
    exec (.storeRegs x) s = .next t → u.mem = t.mem → u.pc.toNat = s.i.toNat + j.val →
    (fetchWord u).toNat = (s.reg j).toNat * 256 + (s.reg j').toNat

/-! ## Display (spec/44_display.md) -/

/-- R183. -/
def Obligations.ClsClearsEveryCell : Prop :=
  decodeWord 0x00E0 = .ok .cls ∧
  ∀ s : State, ∃ t, exec .cls s = .next t ∧ (∀ k, k < 2048 → t.cell k = false) ∧ t.state = .clearPending ∧
    PcPlus 2 s t ∧ Frame [] [.display, .state] s t

/-- R184, with R181's bit order and R182's clipping: each cell is inverted iff the sprite covers it, VF is 1 iff a covered
cell held 1, and the fault leaves everything but STATE. -/
def Obligations.DrawInvertsTheCoveredCells : Prop :=
  ∀ (x y : Reg) (n : Nat) (s : State), n < 16 → decodeWord (wordXYN 0xD000 x y n) = .ok (.drw x y n) ∧
    (0 < n → s.i.toNat + n - 1 ≥ 4096 → exec (.drw x y n) s = .next { s with state := .halted .memoryOutOfBounds }) ∧
    (n = 0 ∨ s.i.toNat + n - 1 < 4096 →
      ∃ t, exec (.drw x y n) s = .next t ∧
        (∀ col row, col < 64 → row < 32 →
          (SpriteCovers s (s.reg x).toNat (s.reg y).toNat n col row → t.cell (row * 64 + col) = !s.cell (row * 64 + col)) ∧
          (¬ SpriteCovers s (s.reg x).toNat (s.reg y).toNat n col row → t.cell (row * 64 + col) = s.cell (row * 64 + col))) ∧
        ((∃ col row, col < 64 ∧ row < 32 ∧ SpriteCovers s (s.reg x).toNat (s.reg y).toNat n col row ∧
            s.cell (row * 64 + col) = true) → t.reg 15 = 1) ∧
        ((∀ col row, col < 64 → row < 32 → SpriteCovers s (s.reg x).toNat (s.reg y).toNat n col row →
            s.cell (row * 64 + col) = false) → t.reg 15 = 0) ∧
        t.state = .drawPending ∧ PcPlus 2 s t ∧ Frame [15] [.display, .state] s t)

/-- R184's corner case: drawing the same sprite at the same place twice restores the buffer, and the second draw's VF is 1
iff the first turned some cell from 0 to 1.  The coordinates are not VF, which the first draw writes. -/
def Obligations.DrawTwiceRestores : Prop :=
  ∀ (x y : Reg) (n : Nat) (s t u : State), x ≠ 15 → y ≠ 15 → exec (.drw x y n) s = .next t →
    faultCause (.drw x y n) s = none → exec (.drw x y n) t = .next u →
    u.disp = s.disp ∧ (u.reg 15 = 1 ↔ ∃ k, k < 2048 ∧ s.cell k = false ∧ t.cell k = true)

/-! ## Keys and timers (spec/45_keys_timers.md) -/

/-- R190, R191. -/
def Obligations.KeySkipsReadTheLatch : Prop :=
  ∀ (x : Reg) (s : State),
    decodeWord (wordX 0xE09E x) = .ok (.skp x) ∧ decodeWord (wordX 0xE0A1 x) = .ok (.sknp x) ∧
    ((s.reg x).toNat ≥ 16 → exec (.skp x) s = .next { s with state := .halted .invalidKeyIndex } ∧
      exec (.sknp x) s = .next { s with state := .halted .invalidKeyIndex }) ∧
    ((s.reg x).toNat < 16 →
      (∃ t, exec (.skp x) s = .next t ∧ PcPlus (if s.key (s.reg x).toNat = true then 4 else 2) s t ∧ Frame [] [] s t) ∧
      (∃ t, exec (.sknp x) s = .next t ∧ PcPlus (if s.key (s.reg x).toNat = false then 4 else 2) s t ∧ Frame [] [] s t))

/-- R192, R194, R195. -/
def Obligations.TimerMoves : Prop :=
  ∀ (x : Reg) (s : State),
    decodeWord (wordX 0xF007 x) = .ok (.ldVxDt x) ∧ decodeWord (wordX 0xF015 x) = .ok (.ldDtVx x) ∧
    decodeWord (wordX 0xF018 x) = .ok (.ldStVx x) ∧
    (∃ t, exec (.ldVxDt x) s = .next t ∧ t.reg x = s.dt ∧ PcPlus 2 s t ∧ Frame [x] [] s t) ∧
    (∃ t, exec (.ldDtVx x) s = .next t ∧ t.dt = s.reg x ∧ PcPlus 2 s t ∧ Frame [] [.delayTimer] s t) ∧
    (∃ t, exec (.ldStVx x) s = .next t ∧ t.st = s.reg x ∧ PcPlus 2 s t ∧ Frame [] [.soundTimer] s t)

/-- R193: with a key pressed, the lowest one's number; with none, Blocked(x) and nothing else. -/
def Obligations.KeyWaitTakesTheLowestKey : Prop :=
  ∀ (x : Reg) (s : State), decodeWord (wordX 0xF00A x) = .ok (.ldVxK x) ∧
    (¬ AnyKey s → exec (.ldVxK x) s = .next { s with state := .blocked x }) ∧
    ∀ k, LowestKey s k → ∃ t, exec (.ldVxK x) s = .next t ∧ (t.reg x).toNat = k ∧ t.state = .running ∧
      PcPlus 2 s t ∧ Frame [x] [.state] s t

/-! ## The engine (spec/40_execution_engine.md) -/

/-- R103: when the bytes at PC decode to `i`, a step is `exec` of `i` on the state with `STATE = Running`; when they are
illegal, it is `Halted(UnknownOpcode)` and nothing else. -/
def Obligations.StepRunsTheDecodedInstruction : Prop :=
  ∀ s : State, s.state = .running ∨ s.state = .drawPending ∨ s.state = .clearPending → s.pc.toNat + 1 < 4096 →
    (∀ i rest, decode (s.byte s.pc.toNat :: s.byte (s.pc.toNat + 1) :: rest) = .ok (i, rest) →
      step s = exec i { s with state := .running }) ∧
    (∀ r, decodeWord (fetchWord s) = .error r → step s = .next { s with state := .halted .unknownOpcode })

/-- R102. -/
def Obligations.FetchIsBoundedAndBigEndian : Prop :=
  ∀ s : State,
    (s.state = .running ∨ s.state = .drawPending ∨ s.state = .clearPending → s.pc.toNat + 1 ≥ 4096 →
      step s = .next { s with state := .halted .fetchOutOfBounds }) ∧
    (fetchWord s).toNat = (s.byte s.pc.toNat).toNat * 256 + (s.byte (s.pc.toNat + 1)).toNat

/-- R101: Halted and Paused change nothing, Blocked completes the wait without fetching, and the one-shot signals run as
Running does. -/
def Obligations.StepFirstLooksAtState : Prop :=
  ∀ s : State,
    (∀ k, s.state = .halted k → step s = .next s) ∧ (s.state = .paused → step s = .next s) ∧
    (∀ t, s.state = .blocked t → step s = .next (completeWait t s)) ∧
    (s.state = .drawPending ∨ s.state = .clearPending → step s = step { s with state := .running })

/-- R110: the wait ends with the lowest pressed key, or nothing changes; nothing is fetched and nothing faults. -/
def Obligations.BlockedStepCompletesTheWait : Prop :=
  ∀ (t : Reg) (s : State), s.state = .blocked t →
    (¬ AnyKey s → step s = .next s) ∧
    (∀ k, LowestKey s k → ∃ u, step s = .next u ∧ (u.reg t).toNat = k ∧ u.state = .running ∧ PcPlus 2 s u ∧
      Frame [t] [.state] s u)

/-- R110's inference, marked by the spec as derived from R61 and R193: where the invariant holds, a step that finds Blocked(t)
is the waiting `Fx0A` executed again, and its word still stands at PC. -/
def Obligations.BlockedStepIsTheWaitingInstruction : Prop :=
  ∀ (t : Reg) (s : State), s.state = .blocked t → Inv s →
    fetchWord s = wordX 0xF00A t ∧ decodeWord (fetchWord s) = .ok (.ldVxK t) ∧ step s = exec (.ldVxK t) s

/-- R109: a step always answers a next state and returns its STATE, which the status word shows; no state stops the
machine. -/
def Obligations.StepAnswersItsState : Prop :=
  ∀ s : State, ∃ t, step s = .next t ∧ transact .step s = .next (t, .state t.state) ∧
    transact .readStatus t = .next (t, .status (statusWord t)) ∧ (statusWord t).toNat % 8 = t.state.tag ∧
    (statusWord t).toNat / 16 % 16 = t.state.blockedReg ∧ (statusWord t).toNat / 256 = t.state.errorCode

/-- R203, R112, with R200's causes: fetch bound, then decode, then the instruction's own check, which is the one of the table;
with all three passed the step does not halt. -/
def Obligations.FaultsAreCheckedInOrder : Prop :=
  ∀ s : State, s.state = .running ∨ s.state = .drawPending ∨ s.state = .clearPending →
    (s.pc.toNat + 1 ≥ 4096 → step s = .next { s with state := .halted .fetchOutOfBounds }) ∧
    (s.pc.toNat + 1 < 4096 →
      (∀ r, decodeWord (fetchWord s) = .error r → step s = .next { s with state := .halted .unknownOpcode }) ∧
      ∀ i, decodeWord (fetchWord s) = .ok i →
        (∀ k, faultCause i s = some k → step s = .next { s with state := .halted k } ∧ k ≠ .loadError) ∧
        (faultCause i s = none → ∃ t, step s = .next t ∧ ∀ k, t.state ≠ .halted k))

/-- R111: a step that ends in Halted(K) changed nothing but STATE. -/
def Obligations.FaultCommitsOnlyState : Prop :=
  ∀ (s t : State) (k : FaultKind), (∀ k', s.state ≠ .halted k') → step s = .next t → t.state = .halted k →
    t = { s with state := .halted k } ∧ k ≠ .loadError

/-- R107: the new PC of every instruction; a faulting one leaves PC unchanged; a new PC of 4095 or more is no fault until the
next fetch. -/
def Obligations.PcFollowsTheTable : Prop :=
  ∀ (i : Instr) (s t : State), exec i s = .next t →
    (faultCause i s = none → PcAfter i s t.pc.toNat ∧
      (t.pc.toNat ≥ 4095 → t.state = .running ∨ t.state = .drawPending ∨ t.state = .clearPending →
        step t = .next { t with state := .halted .fetchOutOfBounds })) ∧
    (faultCause i s ≠ none → t.pc = s.pc)

/-- R108: STATE after every successful instruction. -/
def Obligations.StateFollowsTheInstruction : Prop :=
  ∀ (i : Instr) (s t : State), s.state = .running → faultCause i s = none → exec i s = .next t →
    StateAfter i s t.state

/-! ## Whole-machine rules -/

/-- R23, R22: an instruction writes no general register outside its row, and one outside its "reads" influences nothing
but its own value. -/
def Obligations.RegistersReadAndWrittenByTheTable : Prop :=
  ∀ (i : Instr) (s t : State), exec i s = .next t →
    (∀ r, r ∉ regsWritten i → t.reg r = s.reg r) ∧
    ∀ (r : Reg) (b : Byte), r ∉ regsRead i →
      ∃ t', exec i (s.setReg r b) = .next t' ∧ t'.setReg r 0 = t.setReg r 0 ∧
        (r ∈ regsWritten i → faultCause i s = none → (∀ x, i = .ldVxK x → AnyKey s) → t' = t)

/-- R57, R52: a step changes no byte of memory but those its instruction stores to, and nothing protects any byte. -/
def Obligations.OnlyStoresChangeMemory : Prop :=
  ∀ (s t : State) (a : Nat), step s = .next t → t.byte a ≠ s.byte a →
    a < 4096 ∧ ∃ i, decodeWord (fetchWord s) = .ok i ∧ storesTo i s a

/-- R29, R33, R38: neither ST nor SAVED influences any other state under a step. -/
def Obligations.SoundTimerAndSavedAreUnobservable : Prop :=
  ∀ (s t : State) (b : Byte) (e : ExecState), step s = .next t →
    ∃ t', step { s with st := b, saved := e } = .next t' ∧
      { t' with st := 0, saved := .running } = { t with st := 0, saved := .running }

/-- R26: no step reads a stack entry at an index of SP or more. -/
def Obligations.StaleStackEntriesAreNotRead : Prop :=
  ∀ (s t : State) (j : Fin 16) (w : Word), s.sp.val ≤ j.val → step s = .next t →
    ∃ t', step { s with stack := s.stack.set j.val w } = .next t' ∧ { t' with stack := t.stack } = t ∧
      ∀ k : Fin 16, k.val < t.sp.val → t'.entry k = t.entry k

/-- R26, R120, R122: a call and the return that follows it come back behind the call, with SP as before. -/
def Obligations.CallThenReturnComesBack : Prop :=
  ∀ (nnn : Addr12) (s t u : State), s.sp.val < 16 → exec (.call nnn) s = .next t → exec .ret t = .next u →
    PcPlus 2 s u ∧ u.sp = s.sp ∧ ∀ j : Fin 16, j.val < s.sp.val → u.entry j = s.entry j

/-! ## Memory -/

/-- R60: a byte of memory reads as the most recent write to it, and a write changes no other byte. -/
def Obligations.MemoryReadsTheLastWrite : Prop :=
  ∀ (m : Memory) (a a' : Nat) (b : Byte), a < 4096 →
    Memory.read (Memory.write m a b) a' = if a' = a then b else Memory.read m a'

/-- Memories in canonical form that read alike at every address are equal data (log entry 6, the model's own form). -/
def Obligations.CanonicalMemoriesAreEqual : Prop :=
  ∀ m m' : Memory, Memory.wf m → Memory.wf m' → (∀ a, a < 4096 → Memory.read m a = Memory.read m' a) → m = m'

/-! ## The host's operations (spec/60_exceptions.md, spec/70_reset_and_hazards.md) -/

/-- R210, R211, R212: both timers count down to 0 and stay there, not while Halted or Paused; the beep is ST's step from 1
to 0, and no other operation pulses it; nothing else changes. -/
def Obligations.TickCountsDown : Prop :=
  ∀ s : State,
    ((s.state = .paused ∨ ∃ k, s.state = .halted k) → tick s = (s, false)) ∧
    (s.state ≠ .paused → (∀ k, s.state ≠ .halted k) →
      (tick s).1.dt.toNat = s.dt.toNat - 1 ∧ (tick s).1.st.toNat = s.st.toNat - 1 ∧
      ((tick s).2 = true ↔ s.st.toNat = 1) ∧ (tick s).1.pc = s.pc ∧ Frame [] [.delayTimer, .soundTimer] s (tick s).1) ∧
    transact .tick s = .next ((tick s).1, .beep (tick s).2) ∧
    ∀ (op : HostOp) (t : State), transact op s = .next (t, .beep true) → op = .tick ∧ s.st.toNat = 1

/-- R214: `set_keys` writes the latch and nothing else, in every STATE, and no other operation but `reset` changes it. -/
def Obligations.OnlySetKeysWritesTheLatch : Prop :=
  (∀ (k : BitVec 16) (s : State), transact (.setKeys k) s = .next ({ s with keys := k }, .nothing)) ∧
  ∀ (op : HostOp) (s t : State) (r : Reply), transact op s = .next (t, r) → t.keys ≠ s.keys →
    (∃ k, op = .setKeys k) ∨ ∃ font rom, op = .reset font rom

/-- R217, R218: pause saves STATE and suspends, resume restores it; elsewhere each changes nothing. -/
def Obligations.PauseAndResume : Prop :=
  ∀ s : State,
    ((s.state = .paused ∨ ∃ k, s.state = .halted k) → pause s = s) ∧
    (s.state ≠ .paused → (∀ k, s.state ≠ .halted k) →
      pause s = { s with saved := s.state, state := .paused } ∧ (resume (pause s)).state = s.state) ∧
    (s.state = .paused → resume s = { s with state := s.saved }) ∧ (s.state ≠ .paused → resume s = s)

/-- R34, R35: the fields of the status word. -/
def Obligations.StatusWordFields : Prop :=
  ∀ s : State, (statusWord s).toNat / 8 % 2 = 0 ∧ (statusWord s).toNat / 4096 = 0 ∧
    (s.state = .running → (statusWord s).toNat = 0) ∧
    (∀ t : Reg, s.state = .blocked t → (statusWord s).toNat = 1 + t.val * 16) ∧
    (s.state = .drawPending → (statusWord s).toNat = 2) ∧ (s.state = .clearPending → (statusWord s).toNat = 3) ∧
    (s.state = .paused → (statusWord s).toNat = 4) ∧
    (s.state = .halted .fetchOutOfBounds → (statusWord s).toNat = 0x105) ∧
    (s.state = .halted .memoryOutOfBounds → (statusWord s).toNat = 0x205) ∧
    (s.state = .halted .stackOverflow → (statusWord s).toNat = 0x305) ∧
    (s.state = .halted .stackUnderflow → (statusWord s).toNat = 0x405) ∧
    (s.state = .halted .unknownOpcode → (statusWord s).toNat = 0x505) ∧
    (s.state = .halted .invalidKeyIndex → (statusWord s).toNat = 0x605) ∧
    (s.state = .halted .loadError → (statusWord s).toNat = 0x705)

/-- R215, R216: the two ports give the 2048 cells and the STATUS word in every STATE, and reading changes nothing. -/
def Obligations.ReadsChangeNothing : Prop :=
  ∀ s : State, transact .readStatus s = .next (s, .status (statusWord s)) ∧
    ∃ cells, transact .readDisplay s = .next (s, .display cells) ∧ cells.length = 2048 ∧
      ∀ k, k < 2048 → cells[k]? = some (s.cell k)

/-- R37, R240, R241: what `reset(rom)` leaves, for every font, every ROM and every state before it; its one output is the
status word. -/
def Obligations.ResetBuildsTheWholeState : Prop :=
  ∀ (font : Vector Byte 80) (rom : List Byte) (s : State),
    let t := hostReset font rom s
    transact (.reset font rom) s = .next (t, .status (statusWord t)) ∧
    (∀ a : Fin 80, t.byte a.val = font[a.val]) ∧ (∀ a, 80 ≤ a → a < 0x200 → t.byte a = 0) ∧
    (∀ r, t.reg r = 0) ∧ t.i = 0 ∧ t.pc = 0x200 ∧ (∀ j, t.entry j = 0) ∧ t.sp = 0 ∧ t.dt = 0 ∧ t.st = 0 ∧
    (∀ k, t.cell k = false) ∧ t.keys = 0 ∧ t.saved = .running ∧
    (rom.length ≤ 3584 → t.state = .running ∧ (∀ j, (h : j < rom.length) → t.byte (0x200 + j) = rom[j]) ∧
      ∀ a, 0x200 + rom.length ≤ a → a < 4096 → t.byte a = 0) ∧
    (rom.length > 3584 → t.state = .halted .loadError ∧ (∀ a, 0x200 ≤ a → a < 4096 → t.byte a = 0) ∧ step t = .next t) ∧
    (rom.length = 0 → step t = .next { t with state := .halted .unknownOpcode })

/-- R206: nothing but `reset` leaves Halted; there `set_keys` writes the latch and everything else changes nothing. -/
def Obligations.OnlyResetLeavesHalted : Prop :=
  ∀ (op : HostOp) (s t : State) (k : FaultKind) (r : Reply), s.state = .halted k → transact op s = .next (t, r) →
    (∃ font rom, op = .reset font rom) ∨ (∃ keys, op = .setKeys keys ∧ t = { s with keys := keys }) ∨ t = s

/-- R115: every transition of STATE under every operation of the host. -/
def Obligations.StateTransitionsFollowTheTable : Prop :=
  ∀ (op : HostOp) (s t : State) (r : Reply), transact op s = .next (t, r) → Transition op s t

/-- R242, R61, R220: beside `step`, no operation of the host but `reset` changes MEM, V, I, PC, the stack or the display. -/
def Obligations.HostNeverWritesProgramState : Prop :=
  ∀ (op : HostOp) (s t : State) (r : Reply), op ≠ .step → (∀ font rom, op ≠ .reset font rom) →
    transact op s = .next (t, r) →
    t.mem = s.mem ∧ t.v = s.v ∧ t.i = s.i ∧ t.pc = s.pc ∧ t.stack = s.stack ∧ t.sp = s.sp ∧ t.disp = s.disp

/-- Log entries 1 and 5, the model's own: the machine's reset state is `reset` with the default font and a ROM of 0 bytes, and its
first step halts with UnknownOpcode (R241's last sentence, P7). -/
def Obligations.ResetStateIsTheEmptyRom : Prop :=
  (∀ s : State, hostReset defaultFontRom [] s = { State.reset with draws := s.draws }) ∧
  step State.reset = .next { State.reset with state := .halted .unknownOpcode }

/-! ## The invariant -/

/-- The invariant holds after reset. -/
def Obligations.InvariantHoldsAtReset : Prop := Inv State.reset

/-- R107, R110, R32, R33: every step keeps the invariant: memory's canonical form, the PC and stack bounds that make every
PC wrap impossible, and the waiting `Fx0A` under PC while Blocked. -/
def Obligations.StepKeepsTheInvariant : Prop := ∀ s t : State, Inv s → step s = .next t → Inv t

/-- The same for every transaction of the host, in any order. -/
def Obligations.TransactionsKeepTheInvariant : Prop :=
  ∀ (op : HostOp) (s t : State) (r : Reply), Inv s → transact op s = .next (t, r) → Inv t
end

