-- ==== Sys2Proof/Laws/Decode.lean ====
section
/-!
SUPPORT. The encoder's words as numbers, the fields of such a number, and the spec's `base | x << 8 | …` words as the
encoder's words (spec/30_encoding.md R71, R72).
-/

namespace Sys2Proof

/-! ## The encoder's words as numbers -/

theorem encodeA_toNat {fam : Nat} (h : fam < 16) (nnn : Addr12) : (encodeA fam nnn).toNat = fam * 4096 + nnn.toNat := by
  have := nnn.isLt
  simp only [encodeA, BitVec.toNat_ofNat]
  omega

theorem encodeXI_toNat {fam : Nat} (h : fam < 16) (x : Reg) (nn : Byte) :
    (encodeXI fam x nn).toNat = fam * 4096 + x.val * 256 + nn.toNat := by
  have := nn.isLt
  have := x.isLt
  simp only [encodeXI, BitVec.toNat_ofNat]
  omega

theorem encodeXYN_toNat {fam : Nat} (h : fam < 16) (x y : Reg) {n : Nat} (hn : n < 16) :
    (encodeXYN fam x y n).toNat = fam * 4096 + x.val * 256 + y.val * 16 + n := by
  have := x.isLt
  have := y.isLt
  simp only [encodeXYN, BitVec.toNat_ofNat]
  omega

theorem encodeXS_toNat {fam sel : Nat} (h : fam < 16) (x : Reg) (hs : sel < 256) :
    (encodeXS fam x sel).toNat = fam * 4096 + x.val * 256 + sel := by
  have := x.isLt
  simp only [encodeXS, BitVec.toNat_ofNat]
  omega

/-! ## Fields of a word as numbers -/

theorem field_family (w : Word) : field w 12 4 = w.toNat / 4096 := by
  have := w.isLt
  simp only [field]
  omega

theorem field_low12 (w : Word) : field w 0 12 = w.toNat % 4096 := by simp [field]

theorem field_low8 (w : Word) : field w 0 8 = w.toNat % 256 := by simp [field]

theorem field_low4 (w : Word) : field w 0 4 = w.toNat % 16 := by simp [field]

theorem fieldX_val (w : Word) : (fieldX w).val = w.toNat / 256 % 16 := by simp [fieldX, field]

theorem fieldY_val (w : Word) : (fieldY w).val = w.toNat / 16 % 16 := by simp [fieldY, field]

theorem fieldNN_toNat (w : Word) : (fieldNN w).toNat = w.toNat % 256 := by simp [fieldNN, field]

theorem fieldNNN_toNat (w : Word) : (fieldNNN w).toNat = w.toNat % 4096 := by simp [fieldNNN, field]

theorem fieldN_eq (w : Word) : fieldN w = w.toNat % 16 := by simp [fieldN, field]

/-- The fields of a word given by its nibbles and low parts. -/
theorem fieldX_eq {w : Word} {x : Reg} (h : w.toNat / 256 % 16 = x.val) : fieldX w = x :=
  Fin.ext (by rw [fieldX_val, h])

theorem fieldY_eq {w : Word} {y : Reg} (h : w.toNat / 16 % 16 = y.val) : fieldY w = y :=
  Fin.ext (by rw [fieldY_val, h])

theorem fieldNN_eq {w : Word} {nn : Byte} (h : w.toNat % 256 = nn.toNat) : fieldNN w = nn :=
  BitVec.eq_of_toNat_eq (by rw [fieldNN_toNat, h])

theorem fieldNNN_eq {w : Word} {nnn : Addr12} (h : w.toNat % 4096 = nnn.toNat) : fieldNNN w = nnn :=
  BitVec.eq_of_toNat_eq (by rw [fieldNNN_toNat, h])

/-- The bytes of a word, put together again, are the word (spec/20_memory.md R55). -/
theorem wordOfBytes_bytesOfWord (w : Word) :
    wordOfBytes (BitVec.ofNat 8 (w.toNat / 256)) (BitVec.ofNat 8 (w.toNat % 256)) = w := by
  have := w.isLt
  apply BitVec.eq_of_toNat_eq
  simp only [wordOfBytes, BitVec.toNat_ofNat]
  omega

theorem wordOfBytes_toNat (hi lo : Byte) : (wordOfBytes hi lo).toNat = hi.toNat * 256 + lo.toNat := by
  have := hi.isLt
  have := lo.isLt
  simp only [wordOfBytes, BitVec.toNat_ofNat]
  omega

/-! ## The fields of an encoded word -/

theorem fields_encodeA {fam : Nat} (h : fam < 16) (nnn : Addr12) :
    field (encodeA fam nnn) 12 4 = fam ∧ fieldNNN (encodeA fam nnn) = nnn := by
  have := nnn.isLt
  have e := encodeA_toNat h nnn
  exact ⟨by rw [field_family, e]; omega, fieldNNN_eq (by rw [e]; omega)⟩

theorem fields_encodeXI {fam : Nat} (h : fam < 16) (x : Reg) (nn : Byte) :
    field (encodeXI fam x nn) 12 4 = fam ∧ fieldX (encodeXI fam x nn) = x ∧ fieldNN (encodeXI fam x nn) = nn := by
  have := nn.isLt
  have := x.isLt
  have e := encodeXI_toNat h x nn
  exact ⟨by rw [field_family, e]; omega, fieldX_eq (by rw [e]; omega), fieldNN_eq (by rw [e]; omega)⟩

theorem fields_encodeXYN {fam n : Nat} (h : fam < 16) (x y : Reg) (hn : n < 16) :
    field (encodeXYN fam x y n) 12 4 = fam ∧ fieldX (encodeXYN fam x y n) = x ∧ fieldY (encodeXYN fam x y n) = y ∧
      field (encodeXYN fam x y n) 0 4 = n := by
  have := x.isLt
  have := y.isLt
  have e := encodeXYN_toNat h x y hn
  exact ⟨by rw [field_family, e]; omega, fieldX_eq (by rw [e]; omega), fieldY_eq (by rw [e]; omega),
    by rw [field_low4, e]; omega⟩

theorem fields_encodeXS {fam sel : Nat} (h : fam < 16) (x : Reg) (hs : sel < 256) :
    field (encodeXS fam x sel) 12 4 = fam ∧ fieldX (encodeXS fam x sel) = x ∧ field (encodeXS fam x sel) 0 8 = sel := by
  have := x.isLt
  have e := encodeXS_toNat h x hs
  exact ⟨by rw [field_family, e]; omega, fieldX_eq (by rw [e]; omega), by rw [field_low8, e]; omega⟩

end Sys2Proof

namespace Sys2Proof.Machine

/-! ## The spec's words are the encoder's -/

/-- A multiple of `2 ^ k` or-ed with a number below `2 ^ k` is their sum. -/
theorem or_eq_add (a b k : Nat) (h : b < 2 ^ k) : a * 2 ^ k ||| b = a * 2 ^ k + b := by
  rw [Nat.mul_comm, ← Nat.two_pow_add_eq_or_of_lt h]

theorem wordX_toNat {fam : Nat} (h : fam < 16) (x : Reg) :
    (wordX (BitVec.ofNat 16 (fam * 4096)) x).toNat = fam * 4096 + x.val * 256 := by
  have hx := x.isLt
  have h2 : (x.val % 2 ^ 16) <<< 8 % 2 ^ 16 = x.val * 256 := by simp only [Nat.shiftLeft_eq]; omega
  have h1 : fam * 4096 % 2 ^ 16 = fam * 2 ^ 12 := by omega
  rw [wordX, BitVec.toNat_or, BitVec.toNat_shiftLeft, BitVec.toNat_ofNat, BitVec.toNat_ofNat, h1, h2,
    or_eq_add _ _ 12 (by omega)]
  rfl

theorem wordXYN_toNat {fam : Nat} (h : fam < 16) (x y : Reg) {n : Nat} (hn : n < 16) :
    (wordXYN (BitVec.ofNat 16 (fam * 4096)) x y n).toNat = fam * 4096 + x.val * 256 + y.val * 16 + n := by
  have hx := x.isLt
  have hy := y.isLt
  have h2 : (y.val % 2 ^ 16) <<< 4 % 2 ^ 16 = y.val * 16 := by simp only [Nat.shiftLeft_eq]; omega
  have e1 : fam * 4096 + x.val * 256 = (fam * 16 + x.val) * 2 ^ 8 := by ring
  have e2 : (fam * 16 + x.val) * 2 ^ 8 + y.val * 16 = (fam * 256 + x.val * 16 + y.val) * 2 ^ 4 := by ring
  rw [wordXYN, wordXY, BitVec.toNat_or, BitVec.toNat_or, wordX_toNat h, BitVec.toNat_shiftLeft, BitVec.toNat_ofNat,
    BitVec.toNat_ofNat, h2, e1, or_eq_add _ _ 8 (by omega), e2, Nat.mod_eq_of_lt (by omega), or_eq_add _ _ 4 (by omega)]

theorem wordXYN_eq_encode {fam : Nat} (h : fam < 16) (x y : Reg) {n : Nat} (hn : n < 16) :
    wordXYN (BitVec.ofNat 16 (fam * 4096)) x y n = encodeXYN fam x y n :=
  BitVec.eq_of_toNat_eq (by rw [wordXYN_toNat h x y hn, encodeXYN_toNat h x y hn])

/-- A low part written into the base is the same as one or-ed to it. -/
theorem ofNat_add_eq_or {fam n : Nat} (h : fam < 16) (hn : n < 4096) :
    BitVec.ofNat 16 (fam * 4096 + n) = BitVec.ofNat 16 (fam * 4096) ||| BitVec.ofNat 16 n := by
  have h0 : (fam * 4096 + n) % 2 ^ 16 = fam * 2 ^ 12 + n := by omega
  have h2 : n % 2 ^ 16 = n := by omega
  have h1 : fam * 4096 % 2 ^ 16 = fam * 2 ^ 12 := Nat.mod_eq_of_lt (by omega)
  apply BitVec.eq_of_toNat_eq
  rw [BitVec.toNat_or, BitVec.toNat_ofNat, BitVec.toNat_ofNat, BitVec.toNat_ofNat, h0, h1, h2, or_eq_add _ _ 12 hn]

/-- A selector nibble written into the base is the same word as one or-ed in last. -/
theorem wordXY_eq_encode {fam n : Nat} (h : fam < 16) (x y : Reg) (hn : n < 16) :
    wordXY (BitVec.ofNat 16 (fam * 4096 + n)) x y = encodeXYN fam x y n := by
  have e := ofNat_add_eq_or h (show n < 4096 by omega)
  rw [← wordXYN_eq_encode h x y hn, e, wordXYN, wordXY, wordXY, wordX, wordX]
  generalize BitVec.ofNat 16 (fam * 4096) = a
  generalize BitVec.ofNat 16 x.val <<< 8 = b
  generalize BitVec.ofNat 16 y.val <<< 4 = c
  generalize BitVec.ofNat 16 n = d
  ac_rfl

theorem wordXI_eq_encode {fam : Nat} (h : fam < 16) (x : Reg) (nn : Byte) :
    wordXI (BitVec.ofNat 16 (fam * 4096)) x nn = encodeXI fam x nn := by
  have hx := x.isLt
  have hn := nn.isLt
  have e1 : fam * 4096 + x.val * 256 = (fam * 16 + x.val) * 2 ^ 8 := by ring
  apply BitVec.eq_of_toNat_eq
  rw [encodeXI_toNat h, wordXI, BitVec.toNat_or, wordX_toNat h, BitVec.toNat_setWidth, e1, Nat.mod_eq_of_lt (by omega),
    or_eq_add _ _ 8 (by omega)]

theorem wordA_eq_encode {fam : Nat} (h : fam < 16) (nnn : Addr12) :
    wordA (BitVec.ofNat 16 (fam * 4096)) nnn = encodeA fam nnn := by
  have hn := nnn.isLt
  have h1 : fam * 4096 % 2 ^ 16 = fam * 2 ^ 12 := by omega
  apply BitVec.eq_of_toNat_eq
  rw [encodeA_toNat h, wordA, BitVec.toNat_or, BitVec.toNat_setWidth, BitVec.toNat_ofNat, h1, Nat.mod_eq_of_lt (by omega),
    or_eq_add _ _ 12 (by omega)]
  rfl

theorem wordXS_eq_encode {fam sel : Nat} (h : fam < 16) (hs : sel < 256) (x : Reg) :
    wordX (BitVec.ofNat 16 (fam * 4096 + sel)) x = encodeXS fam x sel := by
  have hx := x.isLt
  have e := ofNat_add_eq_or h (show sel < 4096 by omega)
  have h2 : sel % 2 ^ 16 = sel := by omega
  have e1 : fam * 4096 + x.val * 256 = (fam * 16 + x.val) * 2 ^ 8 := by ring
  have e2 : wordX (BitVec.ofNat 16 (fam * 4096 + sel)) x =
      wordX (BitVec.ofNat 16 (fam * 4096)) x ||| BitVec.ofNat 16 sel := by
    rw [e, wordX, wordX]
    generalize BitVec.ofNat 16 (fam * 4096) = a
    generalize BitVec.ofNat 16 x.val <<< 8 = b
    generalize BitVec.ofNat 16 sel = d
    ac_rfl
  apply BitVec.eq_of_toNat_eq
  rw [e2, encodeXS_toNat h x hs, BitVec.toNat_or, wordX_toNat h, BitVec.toNat_ofNat, e1, h2, or_eq_add _ _ 8 (by omega)]

end Sys2Proof.Machine
end

