-- ==== Sys2Proof/Laws/Memory.lean ====
section
/-!
SUPPORT. Memory: a read after a write, ranges of writes and reads, and the canonical form, which every operation keeps.
-/

namespace Sys2Proof.Machine

/-! ## One cell -/

theorem Memory.read_cons (k : Nat) (b : Byte) (m : Memory) (a : Nat) :
    Memory.read ((k, b) :: m) a = if k = a then b else Memory.read m a := rfl

theorem Memory.read_erase (m : Memory) (a a' : Nat) :
    Memory.read (Memory.erase m a) a' = if a' = a then unlisted a else Memory.read m a' := by
  induction m with
  | nil => by_cases h : a' = a <;> simp [Memory.erase, Memory.read, h]
  | cons c m ih =>
    obtain ⟨k, d⟩ := c
    have step : Memory.erase ((k, d) :: m) a = if k = a then Memory.erase m a else (k, d) :: Memory.erase m a := by
      by_cases hk : k = a <;> simp [Memory.erase, hk]
    rw [step]
    by_cases hk : k = a
    · subst hk
      rw [if_pos rfl, ih, Memory.read_cons]
      by_cases h : a' = k
      · simp [h]
      · simp [h, Ne.symm h]
    · rw [if_neg hk, Memory.read_cons, ih, Memory.read_cons]
      by_cases h : a' = a
      · subst h; simp [hk]
      · simp [h]

theorem Memory.mem_erase {m : Memory} {a : Nat} {c : Host.Cell} : c ∈ Memory.erase m a ↔ c ∈ m ∧ c.1 ≠ a := by
  simp [Memory.erase]

theorem Memory.read_insert {m : Memory} {a : Nat} (h : ∀ c ∈ m, c.1 ≠ a) (a' : Nat) (b : Byte) :
    Memory.read (Memory.insert m a b) a' = if a' = a then b else Memory.read m a' := by
  induction m with
  | nil => by_cases ha : a = a' <;> simp [Memory.insert, Memory.read, ha, eq_comm]
  | cons c m ih =>
    obtain ⟨k, d⟩ := c
    have hk : k ≠ a := h (k, d) (by simp)
    unfold Memory.insert
    split
    · rw [Memory.read_cons]
      by_cases ha : a = a'
      · simp [ha]
      · simp [ha, Ne.symm ha]
    · rw [Memory.read_cons, ih fun c hc => h c (by simp [hc]), Memory.read_cons]
      by_cases ha : a' = a
      · subst ha; simp [hk]
      · simp [ha]

theorem Memory.mem_insert {m : Memory} {a : Nat} {b : Byte} {c : Host.Cell} :
    c ∈ Memory.insert m a b ↔ c = (a, b) ∨ c ∈ m := by
  induction m with
  | nil => simp [Memory.insert]
  | cons d m ih =>
    obtain ⟨k, e⟩ := d
    unfold Memory.insert
    split
    · simp
    · simp only [List.mem_cons, ih]; tauto

/-- A byte written reads back; every other byte is unchanged. -/
theorem Memory.read_write {a : Nat} (h : a < 4096) (m : Memory) (a' : Nat) (b : Byte) :
    Memory.read (Memory.write m a b) a' = if a' = a then b else Memory.read m a' := by
  unfold Memory.write
  rw [if_pos h]
  split
  · next hb => rw [Memory.read_erase, ← hb]
  · rw [Memory.read_insert (fun c hc => (Memory.mem_erase.1 hc).2), Memory.read_erase]
    by_cases ha : a' = a <;> simp [ha]

theorem Memory.write_of_ge {a : Nat} (h : ¬ a < Config.memSize) (m : Memory) (b : Byte) : Memory.write m a b = m :=
  if_neg h

/-! ## The canonical form -/

theorem Memory.wf_nil : Memory.wf [] := ⟨List.Pairwise.nil, by simp⟩

theorem Memory.wf_erase {m : Memory} (h : Memory.wf m) (a : Nat) : Memory.wf (Memory.erase m a) :=
  ⟨h.1.filter _, fun c hc => h.2 c (Memory.mem_erase.1 hc).1⟩

theorem Memory.pairwise_insert {m : Memory} {a : Nat} (hm : m.Pairwise fun p q => p.1 < q.1) (h : ∀ c ∈ m, c.1 ≠ a)
    (b : Byte) : (Memory.insert m a b).Pairwise fun p q => p.1 < q.1 := by
  induction m with
  | nil => simp [Memory.insert]
  | cons d m ih =>
    obtain ⟨k, e⟩ := d
    obtain ⟨hk, hm'⟩ := List.pairwise_cons.1 hm
    have hka : k ≠ a := h (k, e) (by simp)
    unfold Memory.insert
    split
    · next hlt =>
      refine List.pairwise_cons.2 ⟨fun c hc => ?_, hm⟩
      rcases List.mem_cons.1 hc with rfl | hc
      · exact hlt
      · exact hlt.trans (hk c hc)
    · refine List.pairwise_cons.2 ⟨fun c hc => ?_, ih hm' fun c hc => h c (by simp [hc])⟩
      rcases Memory.mem_insert.1 hc with rfl | hc
      · simp only; omega
      · exact hk c hc

/-- A write keeps the canonical form, whatever its address and byte. -/
theorem Memory.wf_write {m : Memory} (h : Memory.wf m) (a : Nat) (b : Byte) : Memory.wf (Memory.write m a b) := by
  unfold Memory.write
  split
  · next ha =>
    split
    · exact Memory.wf_erase h a
    · next hb =>
      refine ⟨Memory.pairwise_insert (Memory.wf_erase h a).1 (fun c hc => (Memory.mem_erase.1 hc).2) b, fun c hc => ?_⟩
      rcases Memory.mem_insert.1 hc with rfl | hc
      · exact ⟨ha, hb⟩
      · exact (Memory.wf_erase h a).2 c hc
  · exact h

theorem Memory.wf_writeBytes {m : Memory} (h : Memory.wf m) (a : Nat) (bs : List Byte) :
    Memory.wf (Memory.writeBytes m a bs) := by
  induction bs generalizing m a with
  | nil => exact h
  | cons b bs ih => exact ih (Memory.wf_write h a b) (a + 1)

/-- An address below every listed one reads as unlisted. -/
theorem Memory.read_of_lt {m : Memory} {a : Nat} (h : ∀ c ∈ m, a < c.1) : Memory.read m a = unlisted a := by
  induction m with
  | nil => rfl
  | cons c m ih =>
    have hk : a < c.1 := h c (by simp)
    rw [show c :: m = (c.1, c.2) :: m from rfl, Memory.read_cons, if_neg (by omega)]
    exact ih fun c hc => h c (by simp [hc])

/-- In the canonical form an address reads as unlisted exactly when it is not listed. -/
theorem Memory.read_of_mem {m : Memory} (h : Memory.wf m) {c : Host.Cell} (hc : c ∈ m) : Memory.read m c.1 = c.2 := by
  induction m with
  | nil => simp at hc
  | cons d m ih =>
    obtain ⟨hk, hm⟩ := List.pairwise_cons.1 h.1
    rw [show d :: m = (d.1, d.2) :: m from rfl, Memory.read_cons]
    rcases List.mem_cons.1 hc with rfl | hc'
    · simp
    · rw [if_neg (hk c hc').ne]
      exact ih ⟨hm, fun c hc => h.2 c (by simp [hc])⟩ hc'

/-! ## Ranges -/

/-- A range of writes inside memory: byte `j` of the list lands at `a + j`, every other byte is unchanged. -/
theorem Memory.read_writeBytes {a : Nat} {bs : List Byte} (h : a + bs.length ≤ 4096) (m : Memory) (a' : Nat) :
    Memory.read (Memory.writeBytes m a bs) a' =
      if a ≤ a' ∧ a' < a + bs.length then bs.getD (a' - a) 0 else Memory.read m a' := by
  induction bs generalizing m a with
  | nil => rw [if_neg (by simp only [List.length_nil]; omega)]; rfl
  | cons b bs ih =>
    have hlen : (b :: bs).length = bs.length + 1 := rfl
    show Memory.read (Memory.writeBytes (Memory.write m a b) (a + 1) bs) a' = _
    rw [ih (by omega), Memory.read_write (by omega)]
    by_cases h1 : a' = a
    · subst h1
      rw [if_neg (by omega), if_pos rfl, if_pos (by omega)]
      simp
    · by_cases h2 : a + 1 ≤ a' ∧ a' < a + 1 + bs.length
      · rw [if_pos h2, if_pos (by omega), show a' - a = (a' - (a + 1)) + 1 by omega, List.getD_cons_succ]
      · rw [if_neg h2, if_neg h1, if_neg (by omega)]

/-- Byte `j` of a range read is the byte at `a + j`. -/
theorem Memory.getD_readBytes (m : Memory) (a n j : Nat) (h : j < n) :
    (Memory.readBytes m a n).getD j 0 = Memory.read m (a + j) := by
  simp [Memory.readBytes, List.getD, h]

@[simp] theorem Memory.length_readBytes (m : Memory) (a n : Nat) : (Memory.readBytes m a n).length = n := by
  simp [Memory.readBytes]

theorem inBounds_iff {a n : Nat} : inBounds a n = true ↔ a + n - 1 < 4096 := by simp [inBounds]

end Sys2Proof.Machine
end

