-- ==== Sys2Proof/Laws/State.lean ====
section
/-!
SUPPORT. One lemma per field per update of the state, each true by `rfl`, and the accessors after each update, so that no
proof unfolds a record update.
-/

namespace Sys2Proof.Machine

variable (s : State) (x : Reg) (b c : Byte) (w : Word) (k : Bool)

/-! ### `setReg` -/

@[simp] theorem State.setReg_mem : (s.setReg x b).mem = s.mem := rfl
@[simp] theorem State.setReg_v : (s.setReg x b).v = s.v.set x.val b := rfl
@[simp] theorem State.setReg_i : (s.setReg x b).i = s.i := rfl
@[simp] theorem State.setReg_pc : (s.setReg x b).pc = s.pc := rfl
@[simp] theorem State.setReg_stack : (s.setReg x b).stack = s.stack := rfl
@[simp] theorem State.setReg_sp : (s.setReg x b).sp = s.sp := rfl
@[simp] theorem State.setReg_dt : (s.setReg x b).dt = s.dt := rfl
@[simp] theorem State.setReg_st : (s.setReg x b).st = s.st := rfl
@[simp] theorem State.setReg_disp : (s.setReg x b).disp = s.disp := rfl
@[simp] theorem State.setReg_keys : (s.setReg x b).keys = s.keys := rfl
@[simp] theorem State.setReg_state : (s.setReg x b).state = s.state := rfl
@[simp] theorem State.setReg_saved : (s.setReg x b).saved = s.saved := rfl
@[simp] theorem State.setReg_draws : (s.setReg x b).draws = s.draws := rfl

/-! ### `setFlagThenReg` -/

@[simp] theorem State.setFlagThenReg_mem : (s.setFlagThenReg c x b).mem = s.mem := rfl
@[simp] theorem State.setFlagThenReg_v : (s.setFlagThenReg c x b).v = (s.v.set vf.val c).set x.val b := rfl
@[simp] theorem State.setFlagThenReg_i : (s.setFlagThenReg c x b).i = s.i := rfl
@[simp] theorem State.setFlagThenReg_pc : (s.setFlagThenReg c x b).pc = s.pc := rfl
@[simp] theorem State.setFlagThenReg_stack : (s.setFlagThenReg c x b).stack = s.stack := rfl
@[simp] theorem State.setFlagThenReg_sp : (s.setFlagThenReg c x b).sp = s.sp := rfl
@[simp] theorem State.setFlagThenReg_dt : (s.setFlagThenReg c x b).dt = s.dt := rfl
@[simp] theorem State.setFlagThenReg_st : (s.setFlagThenReg c x b).st = s.st := rfl
@[simp] theorem State.setFlagThenReg_disp : (s.setFlagThenReg c x b).disp = s.disp := rfl
@[simp] theorem State.setFlagThenReg_keys : (s.setFlagThenReg c x b).keys = s.keys := rfl
@[simp] theorem State.setFlagThenReg_state : (s.setFlagThenReg c x b).state = s.state := rfl
@[simp] theorem State.setFlagThenReg_saved : (s.setFlagThenReg c x b).saved = s.saved := rfl
@[simp] theorem State.setFlagThenReg_draws : (s.setFlagThenReg c x b).draws = s.draws := rfl

/-! ### `advance` -/

@[simp] theorem State.advance_mem : s.advance.mem = s.mem := rfl
@[simp] theorem State.advance_v : s.advance.v = s.v := rfl
@[simp] theorem State.advance_i : s.advance.i = s.i := rfl
@[simp] theorem State.advance_pc : s.advance.pc = s.pc + 2 := rfl
@[simp] theorem State.advance_stack : s.advance.stack = s.stack := rfl
@[simp] theorem State.advance_sp : s.advance.sp = s.sp := rfl
@[simp] theorem State.advance_dt : s.advance.dt = s.dt := rfl
@[simp] theorem State.advance_st : s.advance.st = s.st := rfl
@[simp] theorem State.advance_disp : s.advance.disp = s.disp := rfl
@[simp] theorem State.advance_keys : s.advance.keys = s.keys := rfl
@[simp] theorem State.advance_state : s.advance.state = s.state := rfl
@[simp] theorem State.advance_saved : s.advance.saved = s.saved := rfl
@[simp] theorem State.advance_draws : s.advance.draws = s.draws := rfl

/-! ### `skipIf` -/

@[simp] theorem State.skipIf_mem : (s.skipIf k).mem = s.mem := rfl
@[simp] theorem State.skipIf_v : (s.skipIf k).v = s.v := rfl
@[simp] theorem State.skipIf_i : (s.skipIf k).i = s.i := rfl
@[simp] theorem State.skipIf_pc : (s.skipIf k).pc = s.pc + (if k then 4 else 2) := rfl
@[simp] theorem State.skipIf_stack : (s.skipIf k).stack = s.stack := rfl
@[simp] theorem State.skipIf_sp : (s.skipIf k).sp = s.sp := rfl
@[simp] theorem State.skipIf_dt : (s.skipIf k).dt = s.dt := rfl
@[simp] theorem State.skipIf_st : (s.skipIf k).st = s.st := rfl
@[simp] theorem State.skipIf_disp : (s.skipIf k).disp = s.disp := rfl
@[simp] theorem State.skipIf_keys : (s.skipIf k).keys = s.keys := rfl
@[simp] theorem State.skipIf_state : (s.skipIf k).state = s.state := rfl
@[simp] theorem State.skipIf_saved : (s.skipIf k).saved = s.saved := rfl
@[simp] theorem State.skipIf_draws : (s.skipIf k).draws = s.draws := rfl

/-! ### `jump` -/

@[simp] theorem State.jump_mem : (s.jump w).mem = s.mem := rfl
@[simp] theorem State.jump_v : (s.jump w).v = s.v := rfl
@[simp] theorem State.jump_i : (s.jump w).i = s.i := rfl
@[simp] theorem State.jump_pc : (s.jump w).pc = w := rfl
@[simp] theorem State.jump_stack : (s.jump w).stack = s.stack := rfl
@[simp] theorem State.jump_sp : (s.jump w).sp = s.sp := rfl
@[simp] theorem State.jump_dt : (s.jump w).dt = s.dt := rfl
@[simp] theorem State.jump_st : (s.jump w).st = s.st := rfl
@[simp] theorem State.jump_disp : (s.jump w).disp = s.disp := rfl
@[simp] theorem State.jump_keys : (s.jump w).keys = s.keys := rfl
@[simp] theorem State.jump_state : (s.jump w).state = s.state := rfl
@[simp] theorem State.jump_saved : (s.jump w).saved = s.saved := rfl
@[simp] theorem State.jump_draws : (s.jump w).draws = s.draws := rfl

/-! ### The accessors -/

theorem State.reg_def : s.reg x = s.v[x.val] := rfl

@[simp] theorem State.reg_advance : s.advance.reg x = s.reg x := rfl
@[simp] theorem State.reg_skipIf : (s.skipIf k).reg x = s.reg x := rfl
@[simp] theorem State.reg_jump : (s.jump w).reg x = s.reg x := rfl

/-- A register reads as the last write to it; every other register is unchanged (spec/10_state.md R21: no alias). -/
theorem State.reg_setReg (y : Reg) : (s.setReg x b).reg y = if y = x then b else s.reg y := by
  simp only [State.reg, State.setReg, Vector.getElem_set, Fin.ext_iff, eq_comm]

@[simp] theorem State.reg_setReg_self : (s.setReg x b).reg x = b := by simp [State.reg_setReg]

theorem State.reg_setReg_ne {y : Reg} (h : y ≠ x) : (s.setReg x b).reg y = s.reg y := by simp [State.reg_setReg, h]

/-- The result is written after the flag (spec/40_execution_engine.md R106). -/
theorem State.reg_setFlagThenReg (y : Reg) :
    (s.setFlagThenReg c x b).reg y = if y = x then b else if y = vf then c else s.reg y := by
  simp only [State.setFlagThenReg, State.reg_setReg]

/-- Two states with the same registers, read one by one, hold the same register file. -/
theorem State.v_ext {s t : State} (h : ∀ r, s.reg r = t.reg r) : s.v = t.v :=
  Vector.ext fun j hj => h ⟨j, hj⟩

/-- A state with the fields of `s` but the registers of `t`. -/
theorem State.setReg_setReg (a : Byte) : (s.setReg x a).setReg x b = s.setReg x b := by
  simp [State.setReg, Vector.set_set]

/-- States that differ in the general registers at most, and read them alike, are equal. -/
theorem State.ext_of_reg {s t : State} (h : { s with v := t.v } = t) (hr : ∀ r, s.reg r = t.reg r) : s = t := by
  rw [← h, ← State.v_ext hr]

end Sys2Proof.Machine
end

