-- ==== Sys2Proof/Laws/Operands.lean ====
section
/-!
SUPPORT. What the shared operand forms give: the lowest key, a block of registers written or read, the flags, the bytes
stored through I, and a raised fault.
-/

namespace Sys2Proof.Machine

/-! ## Keys -/

/-- `lowestKey` is the least pressed key (spec/40_execution_engine.md R110). -/
theorem lowestKey_eq_some {s : State} {k : Nat} : lowestKey s = some k ↔ LowestKey s k := by
  rw [lowestKey, List.find?_range_eq_some]
  simp only [LowestKey, List.mem_range, Config.numKeys, Bool.not_eq_true']
  tauto

theorem lowestKey_eq_none {s : State} : lowestKey s = none ↔ ¬ AnyKey s := by
  simp [lowestKey, AnyKey, List.find?_eq_none, Config.numKeys]

theorem LowestKey.anyKey {s : State} {k : Nat} (h : LowestKey s k) : AnyKey s := ⟨k, h.1, h.2.1⟩

/-- The wait ends in one of two ways. -/
theorem lowestKey_cases (s : State) : (¬ AnyKey s ∧ lowestKey s = none) ∨ ∃ k, LowestKey s k ∧ lowestKey s = some k := by
  cases h : lowestKey s with
  | none => exact .inl ⟨lowestKey_eq_none.1 h, rfl⟩
  | some k => exact .inr ⟨k, lowestKey_eq_some.1 h, rfl⟩

/-! ## Blocks of registers -/

/-- `setRegs` writes registers and nothing else. -/
theorem State.setRegs_eq (s : State) (j : Nat) (bs : List Byte) : State.setRegs s j bs = { s with v := (State.setRegs s j bs).v } := by
  induction bs generalizing s j with
  | nil => rfl
  | cons b bs ih =>
    rw [State.setRegs, ih]
    split <;> rfl

/-- Register `r` takes byte `r - j` of the list where there is one, and is unchanged elsewhere. -/
theorem State.reg_setRegs (s : State) (j : Nat) (bs : List Byte) (r : Reg) :
    (State.setRegs s j bs).reg r = if j ≤ r.val ∧ r.val < j + bs.length then bs.getD (r.val - j) 0 else s.reg r := by
  have hr := r.isLt
  induction bs generalizing s j with
  | nil => rw [State.setRegs, if_neg (by simp)]
  | cons b bs ih =>
    have hlen : (b :: bs).length = bs.length + 1 := rfl
    rw [State.setRegs, ih]
    by_cases h1 : r.val = j
    · subst h1
      rw [if_neg (by omega), if_pos (by omega), dif_pos hr]
      simp
    · have hs : State.reg (if h : j < 16 then s.setReg ⟨j, h⟩ b else s) r = s.reg r := by
        split
        · exact State.reg_setReg_ne s _ b fun h => h1 (congrArg Fin.val h)
        · rfl
      by_cases h2 : j + 1 ≤ r.val ∧ r.val < j + 1 + bs.length
      · rw [if_pos h2, if_pos (by omega), show r.val - j = (r.val - (j + 1)) + 1 by omega, List.getD_cons_succ]
      · rw [if_neg h2, if_neg (by omega), hs]

/-- The registers after `setRegs` depend on the registers before it alone. -/
theorem State.setRegs_v_congr {s t : State} (h : s.v = t.v) (j : Nat) (bs : List Byte) :
    (State.setRegs s j bs).v = (State.setRegs t j bs).v :=
  State.v_ext fun r => by
    have hr : s.reg r = t.reg r := by rw [State.reg, State.reg, h]
    rw [State.reg_setRegs, State.reg_setRegs, hr]

@[simp] theorem length_blockRegs (s : State) (x : Reg) : (blockRegs s x).length = x.val + 1 := by
  have := x.isLt
  simp [blockRegs, blockLen]

theorem getD_blockRegs (s : State) {x j : Reg} (h : j ≤ x) : (blockRegs s x).getD j.val 0 = s.reg j := by
  have h' : j.val < x.val + 1 := Nat.lt_succ_of_le h
  simp [blockRegs, blockLen, State.reg, List.getD, h']

@[simp] theorem mem_regsUpTo {x r : Reg} : r ∈ regsUpTo x ↔ r ≤ x := by simp [regsUpTo]

/-! ## Flags -/

theorem flagByte_toNat (c : Bool) : (flagByte c).toNat = if c then 1 else 0 := by cases c <;> rfl

theorem lsbFlag_toNat (a : Byte) : (lsbFlag a).toNat = a.toNat % 2 := by
  simp [lsbFlag, BitVec.toNat_and, Nat.and_one_is_mod]

theorem msbFlag_toNat (a : Byte) : (msbFlag a).toNat = a.toNat / 128 := by
  have := a.isLt
  have h : (msbFlag a).toNat = (a.toNat >>> 7) % 2 := by
    simp [msbFlag, BitVec.toNat_and, BitVec.toNat_ushiftRight, Nat.and_one_is_mod]
  rw [h, Nat.shiftRight_eq_div_pow]
  omega

/-! ## Storing through I -/

/-- A store either lands whole or faults with nothing written (spec/20_memory.md R53). -/
theorem storeAtIndex_of_inBounds {bs : List Byte} {s : State} (h : s.i.toNat + bs.length - 1 < 4096) :
    storeAtIndex bs s = .next (State.advance { s with mem := Memory.writeBytes s.mem s.i.toNat bs }) := by
  rw [storeAtIndex, indexAddr, if_pos (inBounds_iff.2 h)]

theorem storeAtIndex_of_outOfBounds {bs : List Byte} {s : State} (h : ¬ s.i.toNat + bs.length - 1 < 4096) :
    storeAtIndex bs s = .next { s with state := .halted .memoryOutOfBounds } := by
  rw [storeAtIndex, indexAddr, if_neg (fun hb => h (inBounds_iff.1 hb)), raiseFault]

end Sys2Proof.Machine
end

