-- ==== Sys2Proof/Laws/Display.lean ====
section
/-!
SUPPORT. The display: one cell inverted, a list of distinct cells inverted, and which cells a sprite's loops visit
(spec/44_display.md R180 to R184).
-/

namespace Sys2Proof.Machine

/-! ## Cells -/

theorem Display.cell_clear (k : Nat) : Display.cell Display.clear k = false := by
  unfold Display.cell Display.clear
  by_cases h : k / Config.dispW < 32 <;> simp [h]

theorem Display.cell_of_ge (d : Display) {k : Nat} (h : 2048 ≤ k) : Display.cell d k = false := by
  have : ¬ k / Config.dispW < 32 := by simp only [Config.dispW]; omega
  simp [Display.cell, this]

/-- Inverting cell `k` inverts it and no other. -/
theorem Display.cell_flip (d : Display) {k : Nat} (hk : k < 2048) (j : Nat) :
    Display.cell (Display.flip d k) j = if j = k then !Display.cell d k else Display.cell d j := by
  have hrow : k / Config.dispW < 32 := by simp only [Config.dispW]; omega
  have hcol : k % Config.dispW < 64 := Nat.mod_lt _ (by decide)
  rw [Display.flip, dif_pos hrow]
  unfold Display.cell
  by_cases hj : j / Config.dispW = k / Config.dispW
  · rw [hj, Vector.getElem?_set_self hrow, Vector.getElem?_eq_getElem hrow]
    simp only [Option.getD_some, BitVec.getLsbD_xor, BitVec.getLsbD_twoPow]
    by_cases hm : j % Config.dispW = k % Config.dispW
    · have hjk : j = k := by
        rw [← Nat.div_add_mod j Config.dispW, hj, hm, Nat.div_add_mod]
      simp [hjk, hcol]
    · have hjk : j ≠ k := fun h => hm (by rw [h])
      rw [if_neg hjk]
      simp [Ne.symm hm]
  · have hjk : j ≠ k := fun h => hj (by rw [h])
    rw [Vector.getElem?_set_ne (hi := hrow) (h := fun e => hj e.symm), if_neg hjk]

/-- Two displays with the same 2048 cells are equal. -/
theorem Display.ext_cells {d e : Display} (h : ∀ k, k < 2048 → Display.cell d k = Display.cell e k) : d = e := by
  apply Vector.ext
  intro r hr
  apply BitVec.eq_of_getLsbD_eq
  intro c hc
  have := h (r * 64 + c) (by omega)
  have e1 : (r * 64 + c) / Config.dispW = r := by simp only [Config.dispW]; omega
  have e2 : (r * 64 + c) % Config.dispW = c := by simp only [Config.dispW]; omega
  simpa [Display.cell, e1, e2, hr] using this

/-! ## A list of distinct cells -/

theorem drawCells_from (cells : List Nat) (hb : ∀ k ∈ cells, k < 2048) (hn : cells.Nodup) (d : Display) (c : Bool) :
    (∀ j, Display.cell (cells.foldl flipCell (d, c)).1 j = if j ∈ cells then !Display.cell d j else Display.cell d j) ∧
    ((cells.foldl flipCell (d, c)).2 = true ↔ c = true ∨ ∃ k ∈ cells, Display.cell d k = true) := by
  induction cells generalizing d c with
  | nil => simp
  | cons k cells ih =>
    obtain ⟨hk, hn'⟩ := List.nodup_cons.1 hn
    have hk2 : k < 2048 := hb k (by simp)
    obtain ⟨h1, h2⟩ := ih (fun j hj => hb j (by simp [hj])) hn' (Display.flip d k) (c || Display.cell d k)
    constructor
    · intro j
      rw [List.foldl_cons, flipCell, h1, Display.cell_flip d hk2]
      by_cases hj : j = k
      · subst hj; simp [hk]
      · simp [hj]
    · rw [List.foldl_cons, flipCell, h2, Bool.or_eq_true, or_assoc]
      refine or_congr_right ?_
      constructor
      · rintro (h | ⟨j, hj, hc⟩)
        · exact ⟨k, by simp, h⟩
        · refine ⟨j, by simp [hj], ?_⟩
          rwa [Display.cell_flip d hk2, if_neg (fun e : j = k => hk (e ▸ hj))] at hc
      · rintro ⟨j, hj, hc⟩
        rcases List.mem_cons.1 hj with rfl | hj
        · exact .inl hc
        · refine .inr ⟨j, hj, ?_⟩
          rwa [Display.cell_flip d hk2, if_neg (fun e : j = k => hk (e ▸ hj))]

/-- R184's loops over distinct cells: each is inverted, and the flag says whether one of them held 1. -/
theorem drawCells_spec {cells : List Nat} (hb : ∀ k ∈ cells, k < 2048) (hn : cells.Nodup) (d : Display) :
    (∀ j, Display.cell (drawCells d cells).1 j = if j ∈ cells then !Display.cell d j else Display.cell d j) ∧
    ((drawCells d cells).2 = true ↔ ∃ k ∈ cells, Display.cell d k = true) := by
  simpa [drawCells] using drawCells_from cells hb hn d false

/-! ## The cells of a sprite -/

theorem mem_rowCells {px py k : Nat} {row : Byte} :
    k ∈ rowCells px py row ↔ ∃ c, c < 8 ∧ row.getLsbD (7 - c) = true ∧ px + c < 64 ∧ py < 32 ∧ k = py * 64 + (px + c) := by
  simp only [rowCells, spriteBit, List.mem_map, List.mem_filter, List.mem_range, Bool.and_eq_true, decide_eq_true_eq,
    Config.dispW, Config.dispH]
  constructor
  · rintro ⟨c, ⟨h1, ⟨h2, h3⟩, h4⟩, h5⟩; exact ⟨c, h1, h2, h3, h4, h5.symm⟩
  · rintro ⟨c, h1, h2, h3, h4, h5⟩; exact ⟨c, ⟨h1, ⟨h2, h3⟩, h4⟩, h5.symm⟩

theorem nodup_rowCells (px py : Nat) (row : Byte) : (rowCells px py row).Nodup :=
  (List.nodup_range.filter _).map fun a b h => by
    have h' : py * Config.dispW + (px + a) = py * Config.dispW + (px + b) := h
    omega

/-- A cell of a sprite lies on the display, in a row of the sprite and under a set bit. -/
theorem mem_spriteCells {px py k : Nat} {rows : List Byte} :
    k ∈ spriteCells px py rows ↔
      ∃ r c, r < rows.length ∧ c < 8 ∧ (rows.getD r 0).getLsbD (7 - c) = true ∧ px + c < 64 ∧ py + r < 32 ∧
        k = (py + r) * 64 + (px + c) := by
  induction rows generalizing py with
  | nil => simp [spriteCells]
  | cons row rows ih =>
    rw [spriteCells, List.mem_append, mem_rowCells, ih]
    constructor
    · rintro (⟨c, h1, h2, h3, h4, h5⟩ | ⟨r, c, h0, h1, h2, h3, h4, h5⟩)
      · exact ⟨0, c, by simp, h1, by simpa using h2, h3, by omega, by simpa using h5⟩
      · exact ⟨r + 1, c, by simpa using h0, h1, by simpa using h2, h3, by omega, by rw [h5]; ring⟩
    · rintro ⟨r, c, h0, h1, h2, h3, h4, h5⟩
      cases r with
      | zero => exact .inl ⟨c, h1, by simpa using h2, h3, by omega, by simpa using h5⟩
      | succ r => exact .inr ⟨r, c, by simpa using h0, h1, by simpa using h2, h3, by omega, by rw [h5]; ring⟩

theorem spriteCells_lt {px py k : Nat} {rows : List Byte} (h : k ∈ spriteCells px py rows) : k < 2048 := by
  obtain ⟨r, c, -, -, -, h3, h4, rfl⟩ := mem_spriteCells.1 h
  omega

theorem nodup_spriteCells (px py : Nat) (rows : List Byte) : (spriteCells px py rows).Nodup := by
  induction rows generalizing py with
  | nil => exact List.nodup_nil
  | cons row rows ih =>
    refine List.nodup_append.2 ⟨nodup_rowCells px py row, ih (py + 1), fun j hj k hk => ?_⟩
    obtain ⟨c, -, -, h3, -, rfl⟩ := mem_rowCells.1 hj
    obtain ⟨r', c', -, -, -, h3', -, rfl⟩ := mem_spriteCells.1 hk
    omega

/-- A cell by its column and row is drawn exactly where the sprite covers it (R181, R182). -/
theorem mem_drwCells {x y : Reg} {n : Nat} {s : State} {col row : Nat} (hc : col < 64) (hr : row < 32) :
    row * 64 + col ∈ drwCells x y n s ↔ SpriteCovers s (s.reg x).toNat (s.reg y).toNat n col row := by
  rw [drwCells, mem_spriteCells, Memory.length_readBytes]
  constructor
  · rintro ⟨r, c, h0, h1, h2, h3, h4, h5⟩
    rw [Memory.getD_readBytes _ _ _ _ h0] at h2
    obtain ⟨rfl, rfl⟩ : row = (s.reg y).toNat + r ∧ col = (s.reg x).toNat + c := by omega
    refine ⟨by omega, by omega, by omega, by omega, ?_⟩
    simpa [State.byte, indexAddr] using h2
  · rintro ⟨h1, h2, h3, h4, h5⟩
    refine ⟨row - (s.reg y).toNat, col - (s.reg x).toNat, by omega, by omega, ?_, by omega, by omega, by omega⟩
    rwa [Memory.getD_readBytes _ _ _ _ (by omega)]

end Sys2Proof.Machine
end

