-- ==== Sys2Proof/Laws/Engine.lean ====
section
/-!
SUPPORT. What one step can do, said once (spec/40_execution_engine.md R101 to R114), and the completion of a wait.
-/

namespace Sys2Proof.Machine

/-! ## The four ways a step begins (R101) -/

theorem step_of_fetches {s : State} (h : s.state.fetches = true) : step s = fetchExecute s := by
  unfold step stepEngine
  cases hs : s.state <;> simp_all [ExecState.fetches]

theorem step_of_blocked {s : State} {t : Reg} (h : s.state = .blocked t) : step s = .next (completeWait t s) := by
  simp only [step, stepEngine, h]

theorem step_of_paused {s : State} (h : s.state = .paused) : step s = .next s := by simp only [step, stepEngine, h]

theorem step_of_halted {s : State} {k : FaultKind} (h : s.state = .halted k) : step s = .next s := by
  simp only [step, stepEngine, h]

theorem fetches_iff {e : ExecState} : e.fetches = true ↔ e = .running ∨ e = .drawPending ∨ e = .clearPending := by
  cases e <;> simp [ExecState.fetches]

theorem counts_iff {e : ExecState} : e.counts = true ↔ e ≠ .paused ∧ ∀ k, e ≠ .halted k := by
  cases e <;> simp [ExecState.counts]

/-! ## Fetch, decode, execute -/

theorem fetchExecute_of_pc {s : State} (h : s.pc.toNat + 1 ≥ 4096) :
    fetchExecute s = .next { s with state := .halted .fetchOutOfBounds } := by
  rw [fetchExecute, if_pos h, raiseFault]

theorem fetchExecute_of_illegal {s : State} (h : s.pc.toNat + 1 < 4096) {r : Reject}
    (hd : decodeWord (fetchWord s) = .error r) : fetchExecute s = .next { s with state := .halted .unknownOpcode } := by
  rw [fetchExecute, if_neg (by simp only [Config.memSize]; omega), hd, raiseFault]

theorem fetchExecute_of_legal {s : State} (h : s.pc.toNat + 1 < 4096) {i : Instr}
    (hd : decodeWord (fetchWord s) = .ok i) : fetchExecute s = exec i { s with state := .running } := by
  rw [fetchExecute, if_neg (by simp only [Config.memSize]; omega), hd]

/-- The fetched word and STATE: a change of STATE alone changes no fetch (R83). -/
@[simp] theorem fetchWord_state (s : State) (e : ExecState) : fetchWord { s with state := e } = fetchWord s := rfl

/-- Everything a step can do. -/
theorem step_cases {s t : State} (h : step s = .next t) :
    (t = s ∧ (s.state = .paused ∨ ∃ k, s.state = .halted k)) ∨
    (∃ r, s.state = .blocked r ∧ t = completeWait r s) ∨
    (s.state.fetches = true ∧ s.pc.toNat + 1 ≥ 4096 ∧ t = { s with state := .halted .fetchOutOfBounds }) ∨
    (s.state.fetches = true ∧ s.pc.toNat + 1 < 4096 ∧ t = { s with state := .halted .unknownOpcode } ∧
      ∃ r, decodeWord (fetchWord s) = .error r) ∨
    (s.state.fetches = true ∧ s.pc.toNat + 1 < 4096 ∧
      ∃ i, decodeWord (fetchWord s) = .ok i ∧ exec i { s with state := .running } = .next t) := by
  cases hs : s.state with
  | paused => rw [step_of_paused hs] at h; exact .inl ⟨by injection h with h; exact h.symm, .inl rfl⟩
  | halted k => rw [step_of_halted hs] at h; exact .inl ⟨by injection h with h; exact h.symm, .inr ⟨k, rfl⟩⟩
  | blocked r =>
    rw [step_of_blocked hs] at h
    exact .inr (.inl ⟨r, rfl, by injection h with h; exact h.symm⟩)
  | running | drawPending | clearPending =>
    rw [step_of_fetches (by rw [hs]; rfl)] at h
    refine .inr (.inr ?_)
    by_cases hp : s.pc.toNat + 1 ≥ 4096
    · rw [fetchExecute_of_pc hp] at h
      exact .inl ⟨rfl, hp, by injection h with h; exact h.symm⟩
    · have hp' : s.pc.toNat + 1 < 4096 := by omega
      refine .inr ?_
      cases hd : decodeWord (fetchWord s) with
      | error r =>
        rw [fetchExecute_of_illegal hp' hd] at h
        exact .inl ⟨rfl, hp', by injection h with h; exact h.symm, r, rfl⟩
      | ok i =>
        rw [fetchExecute_of_legal hp' hd] at h
        exact .inr ⟨rfl, hp', i, rfl, h⟩

/-! ## The completion of a wait (R110) -/

theorem completeWait_of_noKey {s : State} (h : ¬ AnyKey s) (t : Reg) : completeWait t s = s := by
  rw [completeWait, lowestKey_eq_none.2 h]

theorem completeWait_of_lowestKey {s : State} {k : Nat} (h : LowestKey s k) (t : Reg) :
    completeWait t s = takeKey t k s := by
  rw [completeWait, lowestKey_eq_some.2 h]

end Sys2Proof.Machine
end

