-- ==== Sys2Proof/Laws/Exec.lean ====
section
/-!
SUPPORT. What each shared shape of a meaning does: the program counter after it, the frame of its updates, and the answer
of each meaning that checks something first, on either side of the check.
-/

namespace Sys2Proof.Machine

variable (s : State)

/-! ## The program counter (spec/40_execution_engine.md R107) -/

theorem zext16_toNat (nnn : Addr12) : (zext16 nnn).toNat = nnn.toNat := by
  have := nnn.isLt
  rw [zext16, BitVec.toNat_setWidth, Nat.mod_eq_of_lt (by omega)]

theorem pcPlus_advance {t : State} (h : t.pc = s.pc) : PcPlus 2 s t.advance := by
  rw [PcPlus, State.advance_pc, h, BitVec.toNat_add]
  rfl

/-- A skip whose Bool says the condition `P`. -/
theorem pcPlus_skipIf {c : Bool} {P : Prop} [Decidable P] (h : c = true ↔ P) : PcPlus (if P then 4 else 2) s (s.skipIf c) := by
  rw [PcPlus, State.skipIf_pc, BitVec.toNat_add]
  by_cases hP : P
  · rw [if_pos hP, h.2 hP]; rfl
  · rw [if_neg hP, show c = false from Bool.eq_false_iff.2 fun hc => hP (h.1 hc)]; rfl

/-! ## Frames of the shared updates -/

/-- A change of PC alone: jumps and skips. -/
theorem frame_pc (w : Word) : Frame [] [] s { s with pc := w } :=
  ⟨fun _ _ => rfl, fun _ _ => rfl, fun _ => rfl, fun _ => ⟨rfl, fun _ => rfl⟩, fun _ => rfl, fun _ => rfl, fun _ _ => rfl,
    fun _ => rfl, fun _ => rfl, rfl, rfl⟩

theorem frame_setReg (x : Reg) (b : Byte) : Frame [x] [] s (s.setReg x b).advance :=
  ⟨fun _ h => State.reg_setReg_ne s x b (by simpa using h), fun _ _ => rfl, fun _ => rfl, fun _ => ⟨rfl, fun _ => rfl⟩,
    fun _ => rfl, fun _ => rfl, fun _ _ => rfl, fun _ => rfl, fun _ => rfl, rfl, rfl⟩

theorem frame_setFlagThenReg (x : Reg) (flag b : Byte) : Frame [vf, x] [] s (s.setFlagThenReg flag x b).advance :=
  ⟨fun r h => by
      simp only [List.mem_cons, List.not_mem_nil, or_false, not_or] at h
      rw [State.reg_advance, State.reg_setFlagThenReg, if_neg h.2, if_neg h.1],
    fun _ _ => rfl, fun _ => rfl, fun _ => ⟨rfl, fun _ => rfl⟩, fun _ => rfl, fun _ => rfl, fun _ _ => rfl, fun _ => rfl,
    fun _ => rfl, rfl, rfl⟩

/-- The flag stays in VF unless the destination is VF (R106). -/
theorem vf_setFlagThenReg {x : Reg} (h : x ≠ vf) (flag b : Byte) : (s.setFlagThenReg flag x b).advance.reg vf = flag := by
  rw [State.reg_advance, State.reg_setFlagThenReg, if_neg (Ne.symm h), if_pos rfl]

theorem reg_setFlagThenReg_self (x : Reg) (flag b : Byte) : (s.setFlagThenReg flag x b).advance.reg x = b := by
  rw [State.reg_advance, State.reg_setFlagThenReg, if_pos rfl]

theorem frame_index (w : Word) : Frame [] [.index] s (State.advance { s with i := w }) :=
  ⟨fun _ _ => rfl, fun _ _ => rfl, fun h => absurd (by simp) h, fun _ => ⟨rfl, fun _ => rfl⟩, fun _ => rfl, fun _ => rfl,
    fun _ _ => rfl, fun _ => rfl, fun _ => rfl, rfl, rfl⟩

theorem frame_memory (m : Memory) : Frame [] [.memory] s (State.advance { s with mem := m }) :=
  ⟨fun _ _ => rfl, fun h => absurd (by simp) h, fun _ => rfl, fun _ => ⟨rfl, fun _ => rfl⟩, fun _ => rfl, fun _ => rfl,
    fun _ _ => rfl, fun _ => rfl, fun _ => rfl, rfl, rfl⟩

theorem frame_draw (b : Byte) (d : Display) :
    Frame [vf] [.display, .state] s (State.advance { s.setReg vf b with disp := d, state := .drawPending }) :=
  ⟨fun _ h => State.reg_setReg_ne s vf b (by simpa using h), fun _ _ => rfl, fun _ => rfl, fun _ => ⟨rfl, fun _ => rfl⟩,
    fun _ => rfl, fun _ => rfl, fun h => absurd (by simp) h, fun h => absurd (by simp) h, fun _ => rfl, rfl, rfl⟩

theorem frame_takeKey (x : Reg) (k : Nat) : Frame [x] [.state] s (takeKey x k s) :=
  ⟨fun _ h => State.reg_setReg_ne s x _ (by simpa using h), fun _ _ => rfl, fun _ => rfl, fun _ => ⟨rfl, fun _ => rfl⟩,
    fun _ => rfl, fun _ => rfl, fun _ _ => rfl, fun h => absurd (by simp) h, fun _ => rfl, rfl, rfl⟩

theorem reg_takeKey (x : Reg) {k : Nat} (h : k < 16) : ((takeKey x k s).reg x).toNat = k := by
  have e : (takeKey x k s).reg x = BitVec.ofNat 8 k := State.reg_setReg_self s x _
  rw [e, BitVec.toNat_ofNat, Nat.mod_eq_of_lt (by omega)]

/-! ## Meanings with a check, on either side of it -/

variable {s}

theorem execRet_of_empty (h : s.sp.val = 0) : execRet s = .next { s with state := .halted .stackUnderflow } := by
  rw [execRet, dif_pos h, raiseFault]

theorem execRet_of_entry {j : Fin 16} (h : s.sp.val = j.val + 1) :
    execRet s = .next (State.jump (s.entry j + 2) { s with sp := ⟨j.val, by omega⟩ }) := by
  have hj : (⟨s.sp.val - 1, by omega⟩ : Fin 16) = j := Fin.ext (by simp [h])
  have hsp : (⟨s.sp.val - 1, by omega⟩ : Fin 17) = ⟨j.val, by omega⟩ := Fin.ext (by simp [h])
  rw [execRet, dif_neg (by omega)]
  simp only [hj, hsp]

theorem execCall_of_full (h : s.sp.val = 16) (nnn : Addr12) :
    execCall nnn s = .next { s with state := .halted .stackOverflow } := by
  rw [execCall, dif_pos h, raiseFault]

theorem execCall_of_room {j : Fin 16} (h : s.sp.val = j.val) (nnn : Addr12) :
    execCall nnn s =
      .next (State.jump (zext16 nnn) { s with stack := s.stack.set j.val s.pc, sp := ⟨j.val + 1, by omega⟩ }) := by
  rw [execCall, dif_neg (by omega)]
  simp only [h]

theorem execDrw_of_inBounds {n : Nat} (h : n = 0 ∨ s.i.toNat + n - 1 < 4096) (x y : Reg) :
    execDrw x y n s =
      .next (State.advance { s.setReg vf (flagByte (drawCells s.disp (drwCells x y n s)).2) with
        disp := (drawCells s.disp (drwCells x y n s)).1, state := .drawPending }) := by
  rw [execDrw, if_neg]
  rintro ⟨h0, h1⟩
  have hb : inBounds (indexAddr s) n = true := inBounds_iff.2 (by simp only [indexAddr]; omega)
  rw [hb] at h1
  exact Bool.noConfusion h1

theorem execDrw_of_outOfBounds {n : Nat} (h0 : 0 < n) (h : s.i.toNat + n - 1 ≥ 4096) (x y : Reg) :
    execDrw x y n s = .next { s with state := .halted .memoryOutOfBounds } := by
  rw [execDrw, if_pos, raiseFault]
  refine ⟨h0, ?_⟩
  rw [← Bool.not_eq_true, inBounds_iff]
  simp only [indexAddr]
  omega

theorem execLoadRegs_of_inBounds {x : Reg} (h : s.i.toNat + x.val < 4096) :
    execLoadRegs x s = .next (s.setRegs 0 (Memory.readBytes s.mem s.i.toNat (x.val + 1))).advance := by
  rw [execLoadRegs, if_pos (inBounds_iff.2 (by simp only [indexAddr, blockLen]; omega))]
  rfl

theorem execLoadRegs_of_outOfBounds {x : Reg} (h : s.i.toNat + x.val ≥ 4096) :
    execLoadRegs x s = .next { s with state := .halted .memoryOutOfBounds } := by
  rw [execLoadRegs, if_neg, raiseFault]
  rw [inBounds_iff]
  simp only [indexAddr, blockLen]
  omega

theorem execLdVxK_of_noKey (h : ¬ AnyKey s) (x : Reg) : execLdVxK x s = .next { s with state := .blocked x } := by
  simp only [execLdVxK, lowestKey_eq_none.2 h]

theorem execLdVxK_of_lowestKey {k : Nat} (h : LowestKey s k) (x : Reg) : execLdVxK x s = .next (takeKey x k s) := by
  simp only [execLdVxK, lowestKey_eq_some.2 h]

/-- The cells of a `Dxyn` are inverted, every other cell is kept, and the flag says whether one of them held 1. -/
theorem drawCells_drwCells (x y : Reg) (n : Nat) :
    (∀ k, Display.cell (drawCells s.disp (drwCells x y n s)).1 k =
      if k ∈ drwCells x y n s then !s.cell k else s.cell k) ∧
    ((drawCells s.disp (drwCells x y n s)).2 = true ↔ ∃ k ∈ drwCells x y n s, s.cell k = true) :=
  drawCells_spec (fun _ hk => spriteCells_lt hk) (nodup_spriteCells ..) s.disp

end Sys2Proof.Machine
end

