-- ==== Sys2Proof/Laws/HostOps.lean ====
section
/-!
SUPPORT. Facts about the host's operations: countdown, what memory holds after `reset`, and that reset memory is in its
canonical form.
-/

namespace Sys2Proof.Machine

/-- A countdown stops at 0 (spec/60_exceptions.md R210). -/
theorem countDown_toNat (b : Byte) : (countDown b).toNat = b.toNat - 1 := by
  have := b.isLt
  unfold countDown
  split
  · rw [BitVec.toNat_sub, show (1 : Byte).toNat = 1 from rfl]
    omega
  · omega

theorem tick_of_counts {s : State} (h : s.state.counts = true) :
    tick s = ({ s with dt := countDown s.dt, st := countDown s.st }, s.st.toNat > 0 && countDown s.st == 0) := by
  rw [tick, if_pos h]

theorem tick_of_not_counts {s : State} (h : s.state.counts = false) : tick s = (s, false) := by
  rw [tick, h]
  rfl

/-- Behind the font, an unlisted address reads as 0. -/
theorem unlisted_of_ge {a : Nat} (h : 80 ≤ a) : unlisted a = 0 := by
  have hl : defaultFont.length ≤ a := by simpa [defaultFont] using h
  simp [unlisted, List.getD, List.getElem?_eq_none hl]

/-- Memory after `reset`: the program, the font, and zero elsewhere (spec/20_memory.md R51). -/
theorem read_loadedMemory (font : Vector Byte 80) {rom : List Byte} (h : rom.length ≤ 3584) (a : Nat) :
    Memory.read (loadedMemory font rom) a =
      if 0x200 ≤ a ∧ a < 0x200 + rom.length then rom.getD (a - 0x200) 0
      else if a < 80 then font.toList.getD a 0
      else 0 := by
  rw [loadedMemory, Memory.read_writeBytes (by simp only [Config.progBase]; omega)]
  simp only [Config.progBase]
  congr 1
  rw [Memory.read_writeBytes (by simp)]
  by_cases ha : a < 80
  · simp [ha]
  · simp [ha, Memory.read, unlisted_of_ge (Nat.le_of_not_lt ha)]

theorem wf_loadedMemory (font : Vector Byte 80) (rom : List Byte) : Memory.wf (loadedMemory font rom) :=
  Memory.wf_writeBytes (Memory.wf_writeBytes Memory.wf_nil _ _) _ _

/-- The machine's reset state lists no cell, and its memory is in canonical form. -/
theorem wf_reset : Memory.wf State.reset.mem := Memory.wf_nil

end Sys2Proof.Machine
end

