-- ==== Sys2Proof/Laws/PerInstr.lean ====
section
/-!
SUPPORT. Facts about every instruction as syntax, one lemma per constructor: each instruction's word lies in its own row of
the opcode map (spec/30_encoding.md R84).
-/

namespace Sys2Proof

/-! ## The masks of the opcode map -/

/-- The high nibble and the low `k` bits of a word. -/
theorem and_mask {k m : Nat} (hk : k ≤ 12) (hm : m = 15 * 2 ^ 12 ||| (2 ^ k - 1)) (w : Word) :
    (w &&& BitVec.ofNat 16 m).toNat = w.toNat / 4096 * 4096 + w.toNat % 2 ^ k := by
  have hw := w.isLt
  have hlow : w.toNat % 2 ^ k < 2 ^ 12 :=
    (Nat.mod_lt _ (Nat.two_pow_pos k)).trans_le (Nat.pow_le_pow_right (by omega) hk)
  have hones : 2 ^ k - 1 < 2 ^ 12 := (Nat.sub_lt (Nat.two_pow_pos k) one_pos).trans_le (Nat.pow_le_pow_right (by omega) hk)
  have hm16 : m < 2 ^ 16 := by
    rw [hm, Machine.or_eq_add _ _ 12 hones]
    omega
  rw [show (4096 : Nat) = 2 ^ 12 from rfl, ← Machine.or_eq_add _ _ 12 hlow, BitVec.toNat_and, BitVec.toNat_ofNat,
    Nat.mod_eq_of_lt hm16, hm, Nat.and_or_distrib_left, Nat.and_two_pow_sub_one_eq_mod]
  congr 1
  apply Nat.eq_of_testBit_eq
  intro j
  have h15 : (15 : Nat) = 2 ^ 4 - 1 := rfl
  rw [Nat.testBit_and, Nat.testBit_mul_two_pow, Nat.testBit_mul_two_pow, h15, Nat.testBit_two_pow_sub_one,
    Nat.testBit_div_two_pow]
  by_cases hj : 12 ≤ j
  · by_cases hj' : j < 16
    · simp [hj, show j - 12 < 4 by omega]
    · have : w.toNat.testBit j = false := Nat.testBit_lt_two_pow (hw.trans_le (Nat.pow_le_pow_right (by omega) (by omega)))
      simp [hj, this]
  · simp [hj]

theorem and_F000 (w : Word) : (w &&& 0xF000).toNat = w.toNat / 4096 * 4096 := by
  simpa [Nat.mod_one] using and_mask (k := 0) (m := 0xF000) (by omega) (by decide) w

theorem and_F00F (w : Word) : (w &&& 0xF00F).toNat = w.toNat / 4096 * 4096 + w.toNat % 16 :=
  and_mask (k := 4) (m := 0xF00F) (by omega) (by decide) w

theorem and_F0FF (w : Word) : (w &&& 0xF0FF).toNat = w.toNat / 4096 * 4096 + w.toNat % 256 :=
  and_mask (k := 8) (m := 0xF0FF) (by omega) (by decide) w

theorem and_FFFF (w : Word) : w &&& 0xFFFF = w := by
  rw [show (0xFFFF : Word) = BitVec.allOnes 16 from rfl, BitVec.and_allOnes]

/-! ## Words of each format under their mask -/

theorem encodeA_row {fam : Nat} (h : fam < 16) (nnn : Addr12) : encodeA fam nnn &&& 0xF000 = BitVec.ofNat 16 (fam * 4096) := by
  have := nnn.isLt
  apply BitVec.eq_of_toNat_eq
  rw [and_F000, encodeA_toNat h, BitVec.toNat_ofNat]
  omega

theorem encodeXI_row {fam : Nat} (h : fam < 16) (x : Reg) (nn : Byte) :
    encodeXI fam x nn &&& 0xF000 = BitVec.ofNat 16 (fam * 4096) := by
  have := nn.isLt
  have := x.isLt
  apply BitVec.eq_of_toNat_eq
  rw [and_F000, encodeXI_toNat h, BitVec.toNat_ofNat]
  omega

theorem encodeXY_row {fam n : Nat} (h : fam < 16) (hn : n < 16) (x y : Reg) :
    encodeXYN fam x y n &&& 0xF00F = BitVec.ofNat 16 (fam * 4096 + n) := by
  have := x.isLt
  have := y.isLt
  apply BitVec.eq_of_toNat_eq
  rw [and_F00F, encodeXYN_toNat h x y hn, BitVec.toNat_ofNat]
  omega

theorem encodeXYN_row {fam : Nat} (h : fam < 16) (x y : Reg) (n : Nat) :
    encodeXYN fam x y n &&& 0xF000 = BitVec.ofNat 16 (fam * 4096) := by
  have := x.isLt
  have := y.isLt
  have e : encodeXYN fam x y n = encodeXYN fam x y (n % 16) := by simp [encodeXYN]
  apply BitVec.eq_of_toNat_eq
  rw [and_F000, e, encodeXYN_toNat h x y (Nat.mod_lt _ (by omega)), BitVec.toNat_ofNat]
  omega

theorem encodeXS_row {fam sel : Nat} (h : fam < 16) (hs : sel < 256) (x : Reg) :
    encodeXS fam x sel &&& 0xF0FF = BitVec.ofNat 16 (fam * 4096 + sel) := by
  have := x.isLt
  apply BitVec.eq_of_toNat_eq
  rw [and_F0FF, encodeXS_toNat h x hs, BitVec.toNat_ofNat]
  omega

end Sys2Proof

namespace Sys2Proof.Laws.EncodesItsRow

/-- "a word w is the instruction iff `w & mask == match`" (R84), for the instruction's own word. -/
def Statement (i : Instr) : Prop := encode i &&& (rowOf i).mask = (rowOf i).value

theorem cls : Statement .cls := and_FFFF _
theorem ret : Statement .ret := and_FFFF _
theorem jp (nnn : Addr12) : Statement (.jp nnn) := encodeA_row (by decide) nnn
theorem call (nnn : Addr12) : Statement (.call nnn) := encodeA_row (by decide) nnn
theorem seImm (x : Reg) (nn : Byte) : Statement (.seImm x nn) := encodeXI_row (by decide) x nn
theorem sneImm (x : Reg) (nn : Byte) : Statement (.sneImm x nn) := encodeXI_row (by decide) x nn
theorem seReg (x y : Reg) : Statement (.seReg x y) := encodeXY_row (by decide) (by decide) x y
theorem sneReg (x y : Reg) : Statement (.sneReg x y) := encodeXY_row (by decide) (by decide) x y
theorem ldImm (x : Reg) (nn : Byte) : Statement (.ldImm x nn) := encodeXI_row (by decide) x nn
theorem addImm (x : Reg) (nn : Byte) : Statement (.addImm x nn) := encodeXI_row (by decide) x nn
theorem ldReg (x y : Reg) : Statement (.ldReg x y) := encodeXY_row (by decide) (by decide) x y
theorem orReg (x y : Reg) : Statement (.orReg x y) := encodeXY_row (by decide) (by decide) x y
theorem andReg (x y : Reg) : Statement (.andReg x y) := encodeXY_row (by decide) (by decide) x y
theorem xorReg (x y : Reg) : Statement (.xorReg x y) := encodeXY_row (by decide) (by decide) x y
theorem addReg (x y : Reg) : Statement (.addReg x y) := encodeXY_row (by decide) (by decide) x y
theorem subReg (x y : Reg) : Statement (.subReg x y) := encodeXY_row (by decide) (by decide) x y
theorem shr (x y : Reg) : Statement (.shr x y) := encodeXY_row (by decide) (by decide) x y
theorem subnReg (x y : Reg) : Statement (.subnReg x y) := encodeXY_row (by decide) (by decide) x y
theorem shl (x y : Reg) : Statement (.shl x y) := encodeXY_row (by decide) (by decide) x y
theorem ldI (nnn : Addr12) : Statement (.ldI nnn) := encodeA_row (by decide) nnn
theorem jpV0 (nnn : Addr12) : Statement (.jpV0 nnn) := encodeA_row (by decide) nnn
theorem rnd (x : Reg) (nn : Byte) : Statement (.rnd x nn) := encodeXI_row (by decide) x nn
theorem drw (x y : Reg) (n : Nat) : Statement (.drw x y n) := encodeXYN_row (by decide) x y n
theorem skp (x : Reg) : Statement (.skp x) := encodeXS_row (by decide) (by decide) x
theorem sknp (x : Reg) : Statement (.sknp x) := encodeXS_row (by decide) (by decide) x
theorem ldVxDt (x : Reg) : Statement (.ldVxDt x) := encodeXS_row (by decide) (by decide) x
theorem ldVxK (x : Reg) : Statement (.ldVxK x) := encodeXS_row (by decide) (by decide) x
theorem ldDtVx (x : Reg) : Statement (.ldDtVx x) := encodeXS_row (by decide) (by decide) x
theorem ldStVx (x : Reg) : Statement (.ldStVx x) := encodeXS_row (by decide) (by decide) x
theorem addI (x : Reg) : Statement (.addI x) := encodeXS_row (by decide) (by decide) x
theorem ldF (x : Reg) : Statement (.ldF x) := encodeXS_row (by decide) (by decide) x
theorem ldB (x : Reg) : Statement (.ldB x) := encodeXS_row (by decide) (by decide) x
theorem storeRegs (x : Reg) : Statement (.storeRegs x) := encodeXS_row (by decide) (by decide) x
theorem loadRegs (x : Reg) : Statement (.loadRegs x) := encodeXS_row (by decide) (by decide) x

end Sys2Proof.Laws.EncodesItsRow
end

