-- ==== Sys2Proof/Tests/Slice0.lean ====
section
/-!
SUPPORT. Tests and witnesses.  The expected results are those of spec/95_test_vectors.md, whose names (V7, A11, …) the
comments give, or are worked out by hand from the rule named; none is the model's own answer.
-/

namespace Sys2Proof.Machine.Tests

/-! ## Building small states -/

/-- Registers set one after another. -/
def withRegs (s : State) (l : List (Reg × Byte)) : State := l.foldl (fun s p => s.setReg p.1 p.2) s

/-- Memory bytes set from an address upwards. -/
def withBytes (s : State) (a : Nat) (l : List Byte) : State := { s with mem := Memory.writeBytes s.mem a l }

/-- The reset state with some registers set. -/
def regs (l : List (Reg × Byte)) : State := withRegs State.reset l

/-- The state in a next-state answer, or a state that no test expects. -/
def got (r : Result) : State :=
  match r with
  | .next t => t
  | .fault _ | .refused _ => { State.reset with pc := 0xDEAD, draws := 999 }

/-- One step on the word `w` placed at the program counter. -/
def after (s : State) (w : Nat) : State := got (step (s.withFetchWord 16 w))

/-- The next state differs from the one stepped in STATE alone, which is `Halted(k)`. -/
def haltsOn (s : State) (w : Nat) (k : FaultKind) : Prop :=
  step (s.withFetchWord 16 w) = .next { s.withFetchWord 16 w with state := .halted k }

/-! ## WellFormed refuses what no encoding holds (spec/30_encoding.md R73) -/

theorem test_wellFormed_refuses_height_16 : WellFormed (.drw 0 0 16) = false := by decide

theorem test_wellFormed_takes_height_15 : WellFormed (.drw 0 0 15) = true := by decide

/-! ## Words written out bit by bit from the encodings of spec/opcode_table.json -/

theorem test_decode_family_0 :
    decodeWord 0b0000000011100000 = .ok .cls ∧ decodeWord 0b0000000011101110 = .ok .ret := by decide

theorem test_decode_addresses :
    decodeWord 0b0001001000110100 = .ok (.jp 0x234) ∧ decodeWord 0b0010010000000000 = .ok (.call 0x400) ∧
    decodeWord 0b1010000100100011 = .ok (.ldI 0x123) ∧ decodeWord 0b1011001000000110 = .ok (.jpV0 0x206) := by decide

theorem test_decode_immediates :
    decodeWord 0b0011001000011010 = .ok (.seImm 2 0x1A) ∧ decodeWord 0b0100001000011010 = .ok (.sneImm 2 0x1A) ∧
    decodeWord 0b0110111101010101 = .ok (.ldImm 15 0x55) ∧ decodeWord 0b0111001100000010 = .ok (.addImm 3 2) ∧
    decodeWord 0b1100001100001111 = .ok (.rnd 3 0x0F) := by decide

theorem test_decode_register_skips :
    decodeWord 0b0101000100100000 = .ok (.seReg 1 2) ∧ decodeWord 0b1001000100100000 = .ok (.sneReg 1 2) := by decide

theorem test_decode_family_8 :
    decodeWord 0b1000000100100000 = .ok (.ldReg 1 2) ∧ decodeWord 0b1000000100100001 = .ok (.orReg 1 2) ∧
    decodeWord 0b1000000100100010 = .ok (.andReg 1 2) ∧ decodeWord 0b1000000100100011 = .ok (.xorReg 1 2) ∧
    decodeWord 0b1000000100100100 = .ok (.addReg 1 2) ∧ decodeWord 0b1000000100100101 = .ok (.subReg 1 2) ∧
    decodeWord 0b1000000110010110 = .ok (.shr 1 9) ∧ decodeWord 0b1000000100100111 = .ok (.subnReg 1 2) ∧
    decodeWord 0b1000000100001110 = .ok (.shl 1 0) := by decide

theorem test_decode_sprite : decodeWord 0b1101000100100101 = .ok (.drw 1 2 5) := by decide

theorem test_decode_family_E :
    decodeWord 0b1110010110011110 = .ok (.skp 5) ∧ decodeWord 0b1110010110100001 = .ok (.sknp 5) := by decide

theorem test_decode_family_F :
    decodeWord 0b1111001100000111 = .ok (.ldVxDt 3) ∧ decodeWord 0b1111001100001010 = .ok (.ldVxK 3) ∧
    decodeWord 0b1111001100010101 = .ok (.ldDtVx 3) ∧ decodeWord 0b1111001100011000 = .ok (.ldStVx 3) ∧
    decodeWord 0b1111001100011110 = .ok (.addI 3) ∧ decodeWord 0b1111001100101001 = .ok (.ldF 3) ∧
    decodeWord 0b1111101000110011 = .ok (.ldB 10) ∧ decodeWord 0b1111001101010101 = .ok (.storeRegs 3) ∧
    decodeWord 0b1111001101100101 = .ok (.loadRegs 3) := by decide

/-- The boundary words of section 2.7, and V12, V14, A26, A27, K7, K17. -/
theorem test_decode_illegal :
    [0x0000, 0x00E1, 0x00EF, 0x01E0, 0x0FEE, 0x5121, 0x512F, 0x9121, 0x912F, 0x8128, 0x812D, 0x812F, 0xE5A2, 0xE500,
      0xF300, 0xF3FF].all (fun w => decodeWord w == .error (.unknownOpcode w)) = true := by decide

/-- A byte pair is read most significant byte first, and one byte is no instruction (R70, spec/20_memory.md R55). -/
theorem test_decode_bytes :
    decode [0xA1, 0x23, 0x99] = .ok (.ldI 0x123, [0x99]) ∧ decode [0xA1] = .error .truncated ∧
    decodeTableWord 16 0xA123 = some (.ldI 0x123) ∧ decodeTableWord 16 0x5121 = none := by decide

/-! ## Control flow -/

/-- V1; V2. -/
theorem test_ret :
    haltsOn State.reset 0x00EE .stackUnderflow ∧
    (let t := after { State.reset with pc := 0x402, sp := 1, stack := State.reset.stack.set 0 0x300 } 0x00EE
     t.sp = 0 ∧ t.pc = 0x302 ∧ t.entry 0 = 0x300) := ⟨rfl, by decide⟩

/-- V3. -/
theorem test_jp :
    (after State.reset 0x1FFF).pc = 0xFFF ∧
    (got (step (after State.reset 0x1FFF))).state = .halted .fetchOutOfBounds := by decide

/-- V4; V5. -/
theorem test_call :
    (let t := after { State.reset with pc := 0x300 } 0x2400
     t.entry 0 = 0x300 ∧ t.sp = 1 ∧ t.pc = 0x400) ∧
    (let t := after { State.reset with pc := 0x300, sp := 15 } 0x2400
     t.entry 15 = 0x300 ∧ t.sp = 16 ∧ t.pc = 0x400) := by decide

/-- V6. -/
theorem test_call_full : haltsOn { State.reset with pc := 0x300, sp := 16 } 0x2400 .stackOverflow := rfl

/-- V7; V8. -/
theorem test_seImm :
    (after (regs [(2, 0x1A)]) 0x321A).pc = 0x204 ∧ (after (regs [(2, 0x1B)]) 0x321A).pc = 0x202 := by decide

/-- V9; V10. -/
theorem test_sneImm :
    (after (regs [(2, 0x1A)]) 0x421A).pc = 0x202 ∧ (after (regs [(2, 0x1B)]) 0x421A).pc = 0x204 := by decide

/-- V11; by R125 for unequal registers; V12. -/
theorem test_seReg :
    (after (regs [(1, 7), (2, 7)]) 0x5120).pc = 0x204 ∧ (after (regs [(1, 7), (2, 8)]) 0x5120).pc = 0x202 ∧
    (after (regs [(1, 7), (2, 7)]) 0x5121).state = .halted .unknownOpcode := by decide

/-- V13; by R126 for equal registers. -/
theorem test_sneReg :
    (after (regs [(1, 7), (2, 8)]) 0x9120).pc = 0x204 ∧ (after (regs [(1, 7), (2, 7)]) 0x9120).pc = 0x202 := by decide

/-- V16; V17. -/
theorem test_jpV0 :
    (after (regs [(0, 4)]) 0xB206).pc = 0x20A ∧ (after (regs [(0, 0xFF)]) 0xBFFF).pc = 0x10FE := by decide

/-- V18 (the last word of memory is fetched, and the next step faults); V19; V20. -/
theorem test_fetch :
    (let t := after { State.reset with pc := 0xFFE } 0x00E0
     t.pc = 0x1000 ∧ t.state = .clearPending ∧ (got (step t)).state = .halted .fetchOutOfBounds) ∧
    step { State.reset with pc := 0xFFF } = .next { State.reset with pc := 0xFFF, state := .halted .fetchOutOfBounds } ∧
    (let t := after { State.reset with pc := 0x201 } 0x6A05
     t.reg 10 = 5 ∧ t.pc = 0x203) := ⟨by decide, rfl, by decide⟩

/-! ## Registers and arithmetic -/

/-- A1. -/
theorem test_ldImm : (after State.reset 0x6F55).reg 15 = 0x55 ∧ (after State.reset 0x6F55).pc = 0x202 := by decide

/-- A2. -/
theorem test_addImm :
    let t := after (regs [(3, 0xFF), (15, 0x77)]) 0x7302
    t.reg 3 = 1 ∧ t.reg 15 = 0x77 := by decide

/-- A3. -/
theorem test_ldReg : (after (regs [(2, 0x42)]) 0x8120).reg 1 = 0x42 := by decide

/-- A4. -/
theorem test_orReg :
    let t := after (regs [(1, 0xF0), (2, 0x0F), (15, 0x77)]) 0x8121
    t.reg 1 = 0xFF ∧ t.reg 15 = 0x77 := by decide

/-- A5. -/
theorem test_andReg : (after (regs [(1, 0xF0), (2, 0x3C)]) 0x8122).reg 1 = 0x30 := by decide

/-- A6. -/
theorem test_xorReg : (after (regs [(1, 0xFF), (2, 0x0F)]) 0x8123).reg 1 = 0xF0 := by decide

/-- A8; A10. -/
theorem test_addReg :
    (let t := after (regs [(1, 0xFF), (2, 1)]) 0x8124
     t.reg 1 = 0 ∧ t.reg 15 = 1) ∧
    (let t := after (regs [(1, 0x7F), (2, 1)]) 0x8124
     t.reg 1 = 0x80 ∧ t.reg 15 = 0) := by decide

/-- A11; A12. -/
theorem test_addReg_vf :
    (after (regs [(15, 0xFF), (2, 1)]) 0x8F24).reg 15 = 0 ∧
    (let t := after (regs [(1, 0x10), (15, 1)]) 0x81F4
     t.reg 1 = 0x11 ∧ t.reg 15 = 0) := by decide

/-- A14; A15. -/
theorem test_subReg :
    (let t := after (regs [(1, 3), (2, 5)]) 0x8125
     t.reg 1 = 0xFE ∧ t.reg 15 = 0) ∧
    (let t := after (regs [(1, 9)]) 0x8115
     t.reg 1 = 0 ∧ t.reg 15 = 1) := by decide

/-- A16; A17. -/
theorem test_subReg_vf :
    (let t := after (regs [(1, 0x10), (15, 1)]) 0x81F5
     t.reg 1 = 0x0F ∧ t.reg 15 = 1) ∧
    (after (regs [(15, 0x10), (2, 1)]) 0x8F25).reg 15 = 0x0F := by decide

/-- A18; A19. -/
theorem test_shr :
    (let t := after (regs [(1, 5)]) 0x8106
     t.reg 1 = 2 ∧ t.reg 15 = 1) ∧
    (let t := after (regs [(1, 0x80), (9, 0x33)]) 0x8196
     t.reg 1 = 0x40 ∧ t.reg 15 = 0 ∧ t.reg 9 = 0x33) := by decide

/-- A21; A22. -/
theorem test_subnReg :
    (let t := after (regs [(1, 3), (2, 5)]) 0x8127
     t.reg 1 = 2 ∧ t.reg 15 = 1) ∧
    (let t := after (regs [(1, 5), (2, 3)]) 0x8127
     t.reg 1 = 0xFE ∧ t.reg 15 = 0) := by decide

/-- A23; A24. -/
theorem test_shl :
    (let t := after (regs [(1, 0x81)]) 0x810E
     t.reg 1 = 2 ∧ t.reg 15 = 1) ∧
    (let t := after (regs [(1, 0x41)]) 0x810E
     t.reg 1 = 0x82 ∧ t.reg 15 = 0) := by decide

/-- A20; A25: with x = F the result stays. -/
theorem test_shift_vf :
    (after (regs [(15, 3)]) 0x8F16).reg 15 = 1 ∧ (after (regs [(15, 0xC0)]) 0x8F0E).reg 15 = 0x80 := by decide

/-- A28, A29, A30: the random byte is given, whatever it is. -/
theorem test_rnd :
    (rndWith 0xAB 3 0x0F State.reset).reg 3 = 0x0B ∧ (rndWith 0xAB 3 0 State.reset).reg 3 = 0 ∧
    (rndWith 0xAB 3 0xFF State.reset).reg 3 = 0xAB ∧ (rndWith 0xAB 3 0 State.reset).pc = 0x202 := by decide

/-! ## Index register and memory -/

/-- M1. -/
theorem test_ldI : (after State.reset 0xA123).i = 0x123 := by decide

/-- M2; M3. -/
theorem test_addI :
    (after { regs [(3, 1)] with i := 0xFFFF } 0xF31E).i = 0 ∧
    (after { regs [(3, 0x20)] with i := 0xFF0 } 0xF31E).i = 0x1010 := by decide

/-- M4 (L1.8); M6. -/
theorem test_ldF : (after (regs [(3, 5)]) 0xF329).i = 0x19 ∧ (after (regs [(3, 0xFF)]) 0xF329).i = 0x4FB := by decide

/-- M7; M9. -/
theorem test_ldB :
    (let t := after { regs [(3, 0xFF)] with i := 0x300 } 0xF333
     t.byte 0x300 = 2 ∧ t.byte 0x301 = 5 ∧ t.byte 0x302 = 5) ∧
    (let t := after { regs [(3, 0x7B)] with i := 0xFFD } 0xF333
     t.byte 0xFFD = 1 ∧ t.byte 0xFFE = 2 ∧ t.byte 0xFFF = 3) := by decide

/-- M10. -/
theorem test_ldB_bound : haltsOn { regs [(3, 0x7B)] with i := 0xFFE } 0xF333 .memoryOutOfBounds := rfl

/-- M13; M18 (a program changes the word that follows). -/
theorem test_storeRegs :
    (let t := after { regs [(0, 1), (1, 2), (2, 3), (3, 4)] with i := 0x300 } 0xF255
     t.byte 0x300 = 1 ∧ t.byte 0x302 = 3 ∧ t.byte 0x303 = 0 ∧ t.i = 0x300) ∧
    (let t := after { regs [(0, 0x60), (1, 0x0A)] with i := 0x202 } 0xF155
     t.byte 0x202 = 0x60 ∧ (got (step t)).reg 0 = 0x0A) := by decide

/-- M11; M12. -/
theorem test_storeRegs_bound :
    (after { regs [(0, 0x11)] with i := 0xFFF } 0xF055).byte 0xFFF = 0x11 ∧
    haltsOn { regs [(0, 0x11)] with i := 0xFFF } 0xF155 .memoryOutOfBounds := ⟨by decide, rfl⟩

/-- M14. -/
theorem test_loadRegs :
    let t := after (withBytes { regs [(3, 0x44)] with i := 0x300 } 0x300 [7, 8, 9, 10]) 0xF265
    t.reg 0 = 7 ∧ t.reg 1 = 8 ∧ t.reg 2 = 9 ∧ t.reg 3 = 0x44 ∧ t.i = 0x300 := by decide

/-- M15; M16. -/
theorem test_loadRegs_bound :
    (let t := after { regs [(15, 1)] with i := 0xFF0 } 0xFF65
     t.reg 15 = 0 ∧ t.i = 0xFF0) ∧
    haltsOn { State.reset with i := 0xFF1 } 0xFF65 .memoryOutOfBounds := ⟨by decide, rfl⟩

/-! ## Display -/

/-- D1, on a display with two cells lit. -/
theorem test_cls :
    let t := after { State.reset with disp := Display.flip (Display.flip Display.clear 0) 2047 } 0x00E0
    t.cell 0 = false ∧ t.cell 2047 = false ∧ t.state = .clearPending ∧ t.pc = 0x202 ∧ statusWord t = 3 := by decide

/-- D2's start. -/
def d2Start : State := { regs [(1, 8), (2, 3)] with i := 0x19 }

/-- D2: the 14 cells of the default font's glyph of 5, and no others; bit `c` of a row is column `c`. -/
theorem test_drw :
    let t := after d2Start 0xD125
    t.disp = ((((Display.clear.set 3 0xF00).set 4 0x100).set 5 0xF00).set 6 0x800).set 7 0xF00 ∧ t.reg 15 = 0 ∧
      t.state = .drawPending ∧ statusWord t = 2 := by decide

/-- D3. -/
theorem test_drw_twice :
    let t := after (after { d2Start with pc := 0x200 } 0xD125) 0xD125
    t.disp = Display.clear ∧ t.reg 15 = 1 := by decide

/-- D7; D8; D10. -/
theorem test_drw_edges :
    (let t := after (withBytes { regs [(0, 62), (1, 31)] with i := 0x300 } 0x300 [0xFF]) 0xD011
     t.cell 2046 = true ∧ t.cell 2047 = true ∧ t.cell 0 = false ∧ t.cell 1984 = false ∧ t.reg 15 = 0) ∧
    (after (withBytes { regs [(0, 255), (1, 0)] with i := 0x300 } 0x300 [0xFF]) 0xD011).disp = Display.clear ∧
    (let t := after (withBytes { regs [(15, 2)] with i := 0x300 } 0x300 [0x80]) 0xDFF1
     t.cell 130 = true ∧ t.reg 15 = 0) := by decide

/-- D4; D5; D6. -/
theorem test_drw_bounds :
    (let t := after { regs [(15, 7)] with i := 0xFFFF } 0xD120
     t.reg 15 = 0 ∧ t.state = .drawPending ∧ t.disp = Display.clear) ∧
    haltsOn { State.reset with i := 0xFF2 } 0xD12F .memoryOutOfBounds ∧
    (after { State.reset with i := 0xFF1 } 0xD12F).state = .drawPending := ⟨by decide, rfl, by decide⟩

/-- D11; D12. -/
theorem test_drw_collision :
    (let t := after (withBytes { State.reset with i := 0x300, disp := Display.flip Display.clear 0 } 0x300 [0x80]) 0xD011
     t.cell 0 = false ∧ t.reg 15 = 1) ∧
    (let t := after { State.reset with i := 0x300, disp := Display.flip Display.clear 0 } 0xD011
     t.cell 0 = true ∧ t.reg 15 = 0) := by decide

/-- D13; D14. -/
theorem test_one_shot_signals :
    (let t := after { State.reset with state := .drawPending } 0x6A01
     t.reg 10 = 1 ∧ t.state = .running) ∧
    (after { State.reset with state := .drawPending } 0x0123).state = .halted .unknownOpcode := by decide

/-! ## Keys and timers -/

/-- K1; K2. -/
theorem test_skp :
    (after { regs [(5, 0x0A)] with keys := 0x0400 } 0xE59E).pc = 0x204 ∧ (after (regs [(5, 0x0A)]) 0xE59E).pc = 0x202 := by
  decide

/-- K3; K6. -/
theorem test_key_index_bound :
    haltsOn (regs [(5, 0x10)]) 0xE59E .invalidKeyIndex ∧ haltsOn (regs [(5, 0xFF)]) 0xE5A1 .invalidKeyIndex := ⟨rfl, rfl⟩

/-- K4; K5. -/
theorem test_sknp :
    (after (regs [(5, 3)]) 0xE5A1).pc = 0x204 ∧ (after { regs [(5, 3)] with keys := 0x0008 } 0xE5A1).pc = 0x202 := by
  decide

/-- K8. -/
theorem test_ldVxDt : (after { State.reset with dt := 0x2A } 0xF307).reg 3 = 0x2A := by decide

/-- K9; K10. -/
theorem test_ldVxK :
    (let t := after State.reset 0xF30A
     t.state = .blocked 3 ∧ t.pc = 0x200 ∧ statusWord t = 0x31) ∧
    (let t := after { State.reset with keys := 0x0208 } 0xF30A
     t.reg 3 = 3 ∧ t.pc = 0x202 ∧ t.state = .running) := by decide

/-- K12; K13. -/
theorem test_blocked_step :
    step { State.reset with state := .blocked 3 } = .next { State.reset with state := .blocked 3 } ∧
    (let t := got (step { State.reset with state := .blocked 3, keys := 0x0220 })
     t.reg 3 = 5 ∧ t.pc = 0x202 ∧ t.state = .running) := ⟨rfl, by decide⟩

/-- K14. -/
theorem test_ldDtVx : (after (regs [(3, 0x3C)]) 0xF315).dt = 0x3C := by decide

/-- K15; K16. -/
theorem test_ldStVx :
    (after (regs [(3, 2)]) 0xF318).st = 2 ∧ (after { State.reset with st := 1 } 0xF318).st = 0 := by decide

/-! ## The host's operations -/

/-- H1; H2; H3. -/
theorem test_tick :
    tick { State.reset with st := 1 } = (State.reset, true) ∧ tick State.reset = (State.reset, false) ∧
    tick { State.reset with st := 2, dt := 5 } = ({ State.reset with st := 1, dt := 4 }, false) := by decide

/-- H4; H5; H6. -/
theorem test_tick_by_state :
    (tick { State.reset with dt := 5, state := .paused }).1.dt = 5 ∧
    tick { State.reset with st := 1, state := .halted .unknownOpcode } =
      ({ State.reset with st := 1, state := .halted .unknownOpcode }, false) ∧
    (tick { State.reset with dt := 5, state := .blocked 3 }).1.dt = 4 := by decide

/-- H7, H8; H10; H12. -/
theorem test_pause_resume :
    (let t := pause { State.reset with state := .blocked 3 }
     t.state = .paused ∧ t.saved = .blocked 3 ∧ statusWord t = 4 ∧ (resume t).state = .blocked 3) ∧
    (resume (pause { State.reset with state := .drawPending })).state = .drawPending ∧
    resume State.reset = State.reset := by decide

/-- H13. -/
theorem test_setKeys :
    let t := setKeys 0x8001 State.reset
    t.key 0 = true ∧ t.key 15 = true ∧ t.key 1 = false ∧ t = { State.reset with keys := 0x8001 } := by decide

/-- H15 in small, and H17: reset builds the whole state, from any state before it. -/
theorem test_reset_loads :
    let t := hostReset defaultFontRom [0x60, 0x05, 0xF0, 0x29] { State.reset with state := .halted .stackUnderflow, dt := 7 }
    (t.state = .running ∧ t.dt = 0 ∧ t.saved = .running) ∧
    t.byte 0x200 = 0x60 ∧ t.byte 0x203 = 0x29 ∧ t.byte 0x204 = 0 ∧ t.byte 25 = 0xF0 ∧ t.byte 26 = 0x80 := by
  intro t
  have ht : t = { State.reset with mem := loadedMemory defaultFontRom [0x60, 0x05, 0xF0, 0x29] } := if_neg (by decide)
  rw [ht]
  refine ⟨⟨rfl, rfl, rfl⟩, ?_⟩
  have h : ([0x60, 0x05, 0xF0, 0x29] : List Byte).length ≤ 3584 := by decide
  simp only [State.byte, read_loadedMemory defaultFontRom h]
  decide

/-- H14; H15: the bound on the ROM's length. -/
theorem test_reset_bound (font : Vector Byte 80) (s : State) :
    (hostReset font (List.replicate 3585 0x60) s).state = .halted .loadError ∧
    (hostReset font (List.replicate 3584 0x60) s).state = .running := by
  unfold hostReset
  rw [if_pos (by rw [List.length_replicate]; decide), if_neg (by rw [List.length_replicate]; decide)]
  exact ⟨rfl, rfl⟩

/-- H16. -/
theorem test_reset_runs_empty_memory :
    step State.reset = .next { State.reset with state := .halted .unknownOpcode } ∧
    statusWord { State.reset with state := .halted .unknownOpcode } = 0x505 := ⟨rfl, by decide⟩

/-- H18: the snapshot is the 2048 cells, and the read changes nothing. -/
theorem test_read_display :
    (displaySnapshot (after d2Start 0xD125)).length = 2048 ∧
    transact .readDisplay (after d2Start 0xD125) =
      .next (after d2Start 0xD125, .display (displaySnapshot (after d2Start 0xD125))) :=
  ⟨by simp [displaySnapshot], rfl⟩

/-! ## Witnesses: for each statement with hypotheses, a state and operands that meet them, clause by clause -/

theorem witness_DecodeOfEncode : WellFormed (.drw 15 15 15) = true ∧ WellFormed (.drw 0 0 0) = true := by decide

theorem witness_DecodedWord : decodeWord 0xDFFF = .ok (.drw 15 15 15) ∧ decodeWord 0x8196 = .ok (.shr 1 9) := by decide

theorem witness_OpcodeRows : (⟨0xF065, 0xF0FF⟩ : OpRow) ∈ opcodeRows ∧ (0xFF65 : Word) &&& 0xF0FF = 0xF065 := by decide

/-- Both clauses, the second at both ends of the stack. -/
theorem witness_Ret :
    State.reset.sp.val = 0 ∧ ({ State.reset with sp := 1 } : State).sp.val = (0 : Fin 16).val + 1 ∧
    ({ State.reset with sp := 16 } : State).sp.val = (15 : Fin 16).val + 1 := by decide

/-- A jump and a computed jump behind the last fetchable address, from a running state. -/
theorem witness_Jumps :
    State.reset.state = .running ∧ ((regs [(0, 0xFF)]).reg 0).toNat + (0xFFF : Addr12).toNat ≥ 4095 := by decide

theorem witness_Call :
    ({ State.reset with sp := 16 } : State).sp.val = 16 ∧ State.reset.sp.val = (0 : Fin 16).val ∧
    ({ State.reset with sp := 15 } : State).sp.val = (15 : Fin 16).val := by decide

theorem witness_SelfJump :
    let s := State.reset.withFetchWord 16 0x1200
    s.state = .running ∧ s.pc.toNat = (0x200 : Addr12).toNat ∧ (0x200 : Addr12).toNat < 4095 ∧
      fetchWord s = wordA 0x1000 0x200 := by decide

/-- The flag clause of the arithmetic statements, and the two ends of its condition. -/
theorem witness_flag_clause : (14 : Reg) ≠ 15 ∧ ((0 : Byte) = 0 ∧ (0xFF : Byte) = 0xFF) := by decide

theorem witness_Digits :
    ({ State.reset with i := 0xFFE } : State).i.toNat + 2 ≥ 4096 ∧
    ({ State.reset with i := 0xFFD } : State).i.toNat + 2 < 4096 := by decide

theorem witness_StoreAndLoad :
    ({ State.reset with i := 0xFF1 } : State).i.toNat + (15 : Reg).val ≥ 4096 ∧
    ({ State.reset with i := 0xFF0 } : State).i.toNat + (15 : Reg).val < 4096 ∧ (15 : Reg) ≤ 15 ∧ (14 : Reg) < 15 := by decide

/-- The round trip's hypotheses, and those of the fetch of stored bytes. -/
theorem witness_StoredBytes :
    (14 : Reg).val + 1 = (15 : Reg).val ∧
    ∃ t, exec (.storeRegs 15) { State.reset with i := 0xFF0 } = .next t ∧
      ({ t with pc := 0xFFE } : State).pc.toNat = ({ State.reset with i := 0xFF0 } : State).i.toNat + (14 : Reg).val :=
  ⟨by decide, _, rfl, by decide⟩

theorem witness_StoreThenLoad :
    ({ State.reset with i := 0xFF0 } : State).i.toNat + (15 : Reg).val < 4096 ∧
    ∃ t, exec (.storeRegs 15) { State.reset with i := 0xFF0 } = .next t := ⟨by decide, _, rfl⟩

/-- Both bound clauses at their edge; a covered and an uncovered cell; a covered cell that holds 1. -/
theorem witness_Draw :
    (0 < 15 ∧ ({ State.reset with i := 0xFF2 } : State).i.toNat + 15 - 1 ≥ 4096) ∧
    ({ State.reset with i := 0xFF1 } : State).i.toNat + 15 - 1 < 4096 ∧
    SpriteCovers d2Start 8 3 5 8 3 ∧ ¬ SpriteCovers d2Start 8 3 5 9 4 ∧
    ({ d2Start with disp := Display.flip Display.clear 200 } : State).cell (3 * 64 + 8) = true := by
  unfold SpriteCovers
  decide

theorem witness_Draw_collides : ∃ col row, col < 64 ∧ row < 32 ∧
    SpriteCovers { d2Start with disp := Display.flip Display.clear 200 } 8 3 5 col row ∧
    ({ d2Start with disp := Display.flip Display.clear 200 } : State).cell (row * 64 + col) = true := by
  refine ⟨8, 3, by decide, by decide, ?_, by decide⟩
  unfold SpriteCovers
  decide

theorem witness_Draw_clear : ∀ col row, col < 64 → row < 32 → SpriteCovers d2Start 8 3 5 col row →
    d2Start.cell (row * 64 + col) = false := fun col row hc hr _ => by
  have h : (List.range 32).all (fun r => d2Start.disp[r]?.getD 0 == 0) = true := by decide
  have hrow := List.all_eq_true.1 h row (List.mem_range.2 hr)
  rw [State.cell, Display.cell, show (row * 64 + col) / Config.dispW = row by simp only [Config.dispW]; omega,
    beq_iff_eq.1 hrow]
  simp

theorem witness_DrawTwice : ∃ t u, exec (.drw 1 2 5) d2Start = .next t ∧ faultCause (.drw 1 2 5) d2Start = none ∧
    exec (.drw 1 2 5) t = .next u ∧ (1 : Reg) ≠ 15 ∧ (2 : Reg) ≠ 15 := ⟨_, _, rfl, rfl, rfl, by decide, by decide⟩

theorem witness_KeySkips : ((regs [(5, 16)]).reg 5).toNat ≥ 16 ∧ ((regs [(5, 15)]).reg 5).toNat < 16 := by decide

/-- No key; the lowest of two, at both ends. -/
theorem witness_KeyWait :
    ¬ AnyKey State.reset ∧ LowestKey { State.reset with keys := 0x8001 } 0 ∧
    LowestKey { State.reset with keys := 0x8000 } 15 := by
  unfold AnyKey LowestKey
  decide

/-- The last address a fetch is possible from, with a legal and with an illegal word. -/
theorem witness_StepRuns :
    (let s := ({ State.reset with pc := 0xFFE, state := .clearPending } : State).withFetchWord 16 0x600A
     s.state = .clearPending ∧ s.pc.toNat + 1 < 4096 ∧
       decode [s.byte s.pc.toNat, s.byte (s.pc.toNat + 1)] = .ok (.ldImm 0 10, [])) ∧
    (State.reset.state = .running ∧ State.reset.pc.toNat + 1 < 4096 ∧
      decodeWord (fetchWord State.reset) = .error (.unknownOpcode 0)) := by decide

theorem witness_FetchIsBounded :
    ({ State.reset with pc := 0xFFF } : State).state = .running ∧
    ({ State.reset with pc := 0xFFF } : State).pc.toNat + 1 ≥ 4096 := by decide

/-- A state that waits at an `F30A`, as the first step on it leaves it. -/
def waiting : State := { State.reset.withFetchWord 16 0xF30A with state := .blocked 3 }

theorem waiting_inv : Inv waiting :=
  ⟨by decide, rfl, by decide, by decide, fun t h => by cases h; exact ⟨by decide, rfl⟩, fun t h => by cases h⟩

theorem witness_Blocked :
    waiting.state = .blocked 3 ∧ ¬ AnyKey waiting ∧ LowestKey { waiting with keys := 0x0220 } 5 ∧ Inv waiting := by
  refine ⟨rfl, ?_, ?_, waiting_inv⟩
  · unfold AnyKey; decide
  · unfold LowestKey; decide

/-- The four kinds an instruction raises, and an instruction that raises none. -/
theorem witness_Faults :
    faultCause .ret State.reset = some .stackUnderflow ∧
    faultCause (.call 0) { State.reset with sp := 16 } = some .stackOverflow ∧
    faultCause (.skp 5) (regs [(5, 16)]) = some .invalidKeyIndex ∧
    faultCause (.loadRegs 15) { State.reset with i := 0xFF1 } = some .memoryOutOfBounds ∧
    faultCause (.loadRegs 15) { State.reset with i := 0xFF0 } = none := by decide

/-- A fetchable state whose instruction's own check fails, and one whose check passes. -/
theorem witness_FaultOrder :
    (let s := State.reset.withFetchWord 16 0x00EE
     s.state = .running ∧ s.pc.toNat + 1 < 4096 ∧ decodeWord (fetchWord s) = .ok .ret ∧
       faultCause .ret s = some .stackUnderflow) ∧
    (let s := State.reset.withFetchWord 16 0x1200
     s.state = .running ∧ s.pc.toNat + 1 < 4096 ∧ decodeWord (fetchWord s) = .ok (.jp 0x200) ∧
       faultCause (.jp 0x200) s = none) := by decide

theorem witness_FaultCommits :
    step State.reset = .next { State.reset with state := .halted .unknownOpcode } ∧
    ∀ k, State.reset.state ≠ .halted k := ⟨rfl, fun _ h => by cases h⟩

theorem witness_PcAndState :
    faultCause (.addReg 1 2) State.reset = none ∧ State.reset.state = .running ∧
    (∃ t, exec (.addReg 1 2) State.reset = .next t) ∧
    ∃ t, exec (.jp 0xFFF) State.reset = .next t ∧ t.pc.toNat ≥ 4095 ∧ t.state = .running :=
  ⟨rfl, rfl, ⟨_, rfl⟩, _, rfl, by decide, rfl⟩

theorem witness_RegistersByTheTable :
    (∃ t, exec (.addReg 1 2) State.reset = .next t) ∧ (15 : Reg) ∉ regsRead (.addReg 1 2) ∧
    15 ∈ regsWritten (.addReg 1 2) ∧ faultCause (.addReg 1 2) State.reset = none ∧ 3 ∉ regsWritten (.addReg 1 2) :=
  ⟨⟨_, rfl⟩, by decide, by decide, rfl, by decide⟩

theorem witness_OnlyStores :
    let s := ({ regs [(0, 0x11)] with i := 0xFFF } : State).withFetchWord 16 0xF055
    ∃ t, step s = .next t ∧ t.byte 0xFFF ≠ s.byte 0xFFF := ⟨_, rfl, by decide⟩

/-- A step with a next state, and a stack entry at SP or above. -/
theorem witness_NotRead : (∃ t, step waiting = .next t) ∧ State.reset.sp.val ≤ (0 : Fin 16).val := ⟨⟨_, rfl⟩, by decide⟩

theorem witness_CallThenReturn : ∃ t u, exec (.call 0x400) { State.reset with sp := 15 } = .next t ∧
    exec .ret t = .next u ∧ ({ State.reset with sp := 15 } : State).sp.val < 16 := ⟨_, _, rfl, rfl, by decide⟩

theorem witness_Memory : 4095 < 4096 ∧ Memory.wf [(0x200, 1), (4095, 2)] := by decide

theorem witness_Tick :
    (tick { State.reset with state := .paused, dt := 1 }).1.dt = 1 ∧
    ({ State.reset with st := 1 } : State).state ≠ .paused ∧ ∀ k, ({ State.reset with st := 1 } : State).state ≠ .halted k :=
  ⟨by decide, by decide, fun _ h => by cases h⟩

theorem witness_Latch : ∃ t r, transact (.setKeys 0x8000) State.reset = .next (t, r) ∧ t.keys ≠ State.reset.keys :=
  ⟨_, _, rfl, by decide⟩

theorem witness_PauseAndResume :
    ({ State.reset with state := .paused, saved := .blocked 3 } : State).state = .paused ∧
    (waiting.state ≠ .paused ∧ ∀ k, waiting.state ≠ .halted k) := ⟨rfl, by decide, fun _ h => by cases h⟩

/-- A tick that pulses the beep. -/
theorem witness_Beep : ∃ t, transact .tick { State.reset with st := 1 } = .next (t, .beep true) := ⟨_, rfl⟩

/-- The clauses of the ROM's length, at their bounds. -/
theorem witness_Reset :
    ([] : List Byte).length = 0 ∧ (List.replicate 3584 (0x60 : Byte)).length ≤ 3584 ∧ (List.replicate 3585 (0x60 : Byte)).length > 3584 := by
  rw [List.length_replicate, List.length_replicate]
  exact ⟨rfl, by decide, by decide⟩

theorem witness_Halted : ∃ t r, transact .tick { State.reset with state := .halted .stackOverflow } = .next (t, r) :=
  ⟨_, _, rfl⟩

/-- A transaction of each kind, from the state it acts on. -/
theorem witness_Transitions :
    (∃ t r, transact .pause waiting = .next (t, r)) ∧ (∃ t r, transact .resume (pause waiting) = .next (t, r)) ∧
    (∃ t r, transact .step waiting = .next (t, r)) ∧ ∃ t r, transact (.reset defaultFontRom []) waiting = .next (t, r) :=
  ⟨⟨_, _, rfl⟩, ⟨_, _, rfl⟩, ⟨_, _, rfl⟩, ⟨_, _, rfl⟩⟩

theorem witness_HostNeverWrites :
    HostOp.tick ≠ .step ∧ (∀ font rom, HostOp.tick ≠ .reset font rom) ∧
    ∃ t r, transact .tick State.reset = .next (t, r) := ⟨by decide, by simp, ⟨_, _, rfl⟩⟩

theorem witness_InvariantIsKept :
    Inv waiting ∧ (∃ t, step waiting = .next t) ∧ ∃ t r, transact .pause waiting = .next (t, r) :=
  ⟨waiting_inv, ⟨_, rfl⟩, ⟨_, _, rfl⟩⟩

end Sys2Proof.Machine.Tests
end

/-!
PROOFS. The state family: the fields of the status word (spec/10_state.md R34, R35) and what `reset(rom)` leaves
(R37; spec/70_reset_and_hazards.md R240, R241).
-/

namespace Sys2Proof.Machine

/-! ## The status word -/

theorem ExecState.tag_lt (e : ExecState) : e.tag < 8 := by cases e <;> simp [ExecState.tag]

theorem ExecState.blockedReg_lt (e : ExecState) : e.blockedReg < 16 := by
  cases e with
  | blocked t => exact t.isLt
  | running | drawPending | clearPending | paused | halted _ => exact Nat.zero_lt_succ 15

theorem FaultKind.code_lt (k : FaultKind) : k.code < 16 := by cases k <;> simp [FaultKind.code]

theorem ExecState.errorCode_lt (e : ExecState) : e.errorCode < 16 := by
  cases e with
  | halted k => exact k.code_lt
  | running | blocked _ | drawPending | clearPending | paused => exact Nat.zero_lt_succ 15

/-- The three fields do not overlap and fit in the word (R34). -/
theorem statusWord_toNat (s : State) :
    (statusWord s).toNat = s.state.tag + s.state.blockedReg * 16 + s.state.errorCode * 256 := by
  have ht := s.state.tag_lt
  have hb := s.state.blockedReg_lt
  have he := s.state.errorCode_lt
  rw [statusWord, BitVec.toNat_ofNat, Nat.mod_eq_of_lt (by omega)]

/-- The code of the fault stands in ERROR (R35). -/
theorem statusWord_of_halted {s : State} {k : FaultKind} (h : s.state = .halted k) :
    (statusWord s).toNat = 5 + k.code * 256 := by
  rw [statusWord_toNat, h, ExecState.tag, ExecState.blockedReg, ExecState.errorCode]

/-- Bits 3 and 15:12 belong to no field (R34). -/
theorem statusWord_unusedBits (s : State) : (statusWord s).toNat / 8 % 2 = 0 ∧ (statusWord s).toNat / 4096 = 0 := by
  have ht := s.state.tag_lt
  have hb := s.state.blockedReg_lt
  have he := s.state.errorCode_lt
  rw [statusWord_toNat]
  omega

/-- Settles O51: the status word is the sum of its fields, and each STATE fixes all three of them. -/
theorem statusWordFields : Obligations.StatusWordFields := by
  intro s
  obtain ⟨h3, h12⟩ := statusWord_unusedBits s
  refine ⟨h3, h12, ?running, fun t => ?blocked, ?drawPending, ?clearPending, ?paused, ?halted⟩
  case running | blocked | drawPending | clearPending | paused =>
    intro h
    simp [statusWord_toNat, h, ExecState.tag, ExecState.blockedReg, ExecState.errorCode]
  case halted => refine ⟨?_, ?_, ?_, ?_, ?_, ?_, ?_⟩ <;> intro h <;> simp [statusWord_of_halted h, FaultKind.code]

/-! ## The state after `reset(rom)` -/

/-- What `reset` writes of a ROM: all of it, or nothing of one longer than 3584 bytes (R241). -/
def acceptedRom (rom : List Byte) : List Byte := if rom.length > Config.maxRom then [] else rom

theorem acceptedRom_of_le {rom : List Byte} (h : rom.length ≤ 3584) : acceptedRom rom = rom := if_neg (Nat.not_lt.2 h)

theorem acceptedRom_of_gt {rom : List Byte} (h : rom.length > 3584) : acceptedRom rom = [] := if_pos h

theorem length_acceptedRom_le (rom : List Byte) : (acceptedRom rom).length ≤ 3584 := by
  unfold acceptedRom
  split
  · exact Nat.zero_le _
  · next h => exact Nat.le_of_not_lt h

/-- The ROM decides memory and STATE; the draw counter is kept and everything else is as in `State.reset`. -/
theorem hostReset_eq (font : Vector Byte 80) (rom : List Byte) (s : State) :
    hostReset font rom s = { State.reset with
      mem := loadedMemory font (acceptedRom rom)
      state := if rom.length > Config.maxRom then .halted .loadError else .running
      draws := s.draws } := by
  unfold hostReset acceptedRom
  split <;> rfl

theorem hostReset_state_of_le {rom : List Byte} (h : rom.length ≤ 3584) (font : Vector Byte 80) (s : State) :
    (hostReset font rom s).state = .running := by
  rw [hostReset_eq]
  exact if_neg (Nat.not_lt.2 h)

theorem hostReset_state_of_gt {rom : List Byte} (h : rom.length > 3584) (font : Vector Byte 80) (s : State) :
    (hostReset font rom s).state = .halted .loadError := by
  rw [hostReset_eq]
  exact if_pos h

/-- Memory after `reset`: the accepted ROM from 0x200, the font, and 0 elsewhere (R240). -/
theorem byte_hostReset (font : Vector Byte 80) (rom : List Byte) (s : State) (a : Nat) :
    (hostReset font rom s).byte a =
      if 0x200 ≤ a ∧ a < 0x200 + (acceptedRom rom).length then (acceptedRom rom).getD (a - 0x200) 0
      else if a < 80 then font.toList.getD a 0
      else 0 := by
  rw [hostReset_eq]
  exact read_loadedMemory font (length_acceptedRom_le rom) a

theorem byte_hostReset_font (font : Vector Byte 80) (rom : List Byte) (s : State) (a : Fin 80) :
    (hostReset font rom s).byte a.val = font[a.val] := by
  have ha := a.isLt
  rw [byte_hostReset, if_neg (by omega), if_pos ha]
  simp [List.getD]

/-- A byte that belongs neither to the font nor to the accepted ROM is 0. -/
theorem byte_hostReset_zero (font : Vector Byte 80) (rom : List Byte) (s : State) {a : Nat} (h : 80 ≤ a)
    (hr : a < 0x200 ∨ 0x200 + (acceptedRom rom).length ≤ a) : (hostReset font rom s).byte a = 0 := by
  rw [byte_hostReset, if_neg (by omega), if_neg (by omega)]

theorem byte_hostReset_rom {rom : List Byte} (h : rom.length ≤ 3584) (font : Vector Byte 80) (s : State) {j : Nat}
    (hj : j < rom.length) : (hostReset font rom s).byte (0x200 + j) = rom[j] := by
  rw [byte_hostReset, acceptedRom_of_le h, if_pos (by omega), Nat.add_sub_cancel_left]
  exact List.getD_eq_getElem rom 0 hj

theorem State.reg_reset (r : Reg) : State.reset.reg r = 0 := Vector.getElem_replicate r.isLt

theorem State.entry_reset (j : Fin 16) : State.reset.entry j = 0 := Vector.getElem_replicate j.isLt

theorem State.cell_reset (k : Nat) : State.reset.cell k = false := Display.cell_clear k

/-- With a ROM of 0 bytes the first step fetches 0x0000, which is illegal (R241). -/
theorem step_hostReset_nil (font : Vector Byte 80) (s : State) :
    step (hostReset font [] s) = .next { hostReset font [] s with state := .halted .unknownOpcode } := by
  have hpc : (hostReset font [] s).pc = 0x200 := rfl
  have hzero (a : Nat) (h : 0x200 ≤ a) : (hostReset font [] s).byte a = 0 :=
    byte_hostReset_zero font [] s (by omega) (.inr h)
  have hw : fetchWord (hostReset font [] s) = 0 := by
    rw [fetchWord, hpc, hzero _ (by decide), hzero _ (by decide)]
    rfl
  have hd : decodeWord (fetchWord (hostReset font [] s)) = .error (.unknownOpcode 0) := by rw [hw]; rfl
  rw [step_of_fetches rfl, fetchExecute_of_illegal (by rw [hpc]; decide) hd]

/-- Settles O53: `hostReset_eq` gives the fields, `byte_hostReset` memory, and the length of the ROM the rest. -/
theorem resetBuildsTheWholeState : Obligations.ResetBuildsTheWholeState := by
  intro font rom s t
  have ht : t = _ := hostReset_eq font rom s
  refine ⟨rfl, byte_hostReset_font font rom s, fun a h h' => byte_hostReset_zero font rom s h (.inl h'), ?regs,
    ?i, ?pc, ?entries, ?sp, ?dt, ?st, ?cells, ?keys, ?saved, ?fits, ?tooLong, ?empty⟩
  case regs => rw [ht]; exact State.reg_reset
  case entries => rw [ht]; exact State.entry_reset
  case cells => rw [ht]; exact State.cell_reset
  case i | pc | sp | dt | st | keys | saved => rw [ht]; rfl
  case fits =>
    intro h
    refine ⟨hostReset_state_of_le h font s, fun j => byte_hostReset_rom h font s, fun a ha _ => ?_⟩
    exact byte_hostReset_zero font rom s (by omega) (.inr (by rwa [acceptedRom_of_le h]))
  case tooLong =>
    intro h
    have hs := hostReset_state_of_gt h font s
    refine ⟨hs, fun a ha _ => ?_, step_of_halted hs⟩
    exact byte_hostReset_zero font rom s (by omega) (.inr (by rwa [acceptedRom_of_gt h]))
  case empty =>
    intro h
    obtain rfl := List.eq_nil_of_length_eq_zero h
    exact step_hostReset_nil font s

end Sys2Proof.Machine

/-!
PROOFS. The engine family (spec/40_execution_engine.md): what an instruction answers on either side of its own check
(R105, R107, R108, R111), the order of a step's checks (R112), and the transitions of STATE (R115).
-/

namespace Sys2Proof.Machine

/-! ## An instruction whose own check fails (R111) -/

theorem execSkp_of_invalidKey {s : State} {x : Reg} (h : (s.reg x).toNat ≥ 16) :
    execSkp x s = .next { s with state := .halted .invalidKeyIndex } := by
  rw [execSkp, if_pos h, raiseFault]

theorem execSkp_of_validKey {s : State} {x : Reg} (h : ¬ (s.reg x).toNat ≥ 16) :
    execSkp x s = .next (s.skipIf (s.key (s.reg x).toNat)) := by
  rw [execSkp, if_neg h]

theorem execSknp_of_invalidKey {s : State} {x : Reg} (h : (s.reg x).toNat ≥ 16) :
    execSknp x s = .next { s with state := .halted .invalidKeyIndex } := by
  rw [execSknp, if_pos h, raiseFault]

theorem execSknp_of_validKey {s : State} {x : Reg} (h : ¬ (s.reg x).toNat ≥ 16) :
    execSknp x s = .next (s.skipIf (!s.key (s.reg x).toNat)) := by
  rw [execSknp, if_neg h]

/-- A row of R200's table: the condition under which an instruction faults, and the kind. -/
theorem check_fails {c : Prop} [Decidable c] {kind k : FaultKind} (h : (if c then some kind else none) = some k) :
    c ∧ kind = k := by simpa using h

theorem check_passes {c : Prop} [Decidable c] {kind : FaultKind} (h : (if c then some kind else none) = none) : ¬ c := by
  simpa using h

/-- The table of R200 names every kind that an instruction raises, and LoadError is none of them. -/
theorem faultCause_ne_loadError {i : Instr} {s : State} {k : FaultKind} (h : faultCause i s = some k) :
    k ≠ .loadError := by
  cases i
  case ret | call | skp | sknp | drw | ldB | storeRegs | loadRegs =>
    obtain ⟨-, rfl⟩ := check_fails h
    exact FaultKind.noConfusion
  -- every other instruction has no check
  all_goals cases h

/-- A failing check changes STATE and nothing else (R105, R111). -/
theorem exec_of_faultCause {i : Instr} {s : State} {k : FaultKind} (h : faultCause i s = some k) :
    exec i s = .next { s with state := .halted k } := by
  cases i
  case ret => obtain ⟨hc, rfl⟩ := check_fails h; exact execRet_of_empty hc
  case call nnn => obtain ⟨hc, rfl⟩ := check_fails h; exact execCall_of_full hc nnn
  case skp => obtain ⟨hc, rfl⟩ := check_fails h; exact execSkp_of_invalidKey hc
  case sknp => obtain ⟨hc, rfl⟩ := check_fails h; exact execSknp_of_invalidKey hc
  case drw x y n => obtain ⟨⟨h0, hc⟩, rfl⟩ := check_fails h; exact execDrw_of_outOfBounds h0 hc x y
  case ldB => obtain ⟨hc, rfl⟩ := check_fails h; exact storeAtIndex_of_outOfBounds (Nat.not_lt.2 hc)
  case storeRegs x =>
    obtain ⟨hc, rfl⟩ := check_fails h
    exact storeAtIndex_of_outOfBounds (by rw [length_blockRegs]; omega)
  case loadRegs => obtain ⟨hc, rfl⟩ := check_fails h; exact execLoadRegs_of_outOfBounds hc
  -- every other instruction has no check
  all_goals cases h

/-! ## An instruction whose own check passes (R107, R108) -/

/-- `i` answers `t` with the PC of R107's table and, when it ran in Running, the STATE of R108. -/
def Completes (i : Instr) (s t : State) : Prop :=
  exec i s = .next t ∧ PcAfter i s t.pc.toNat ∧ (s.state = .running → StateAfter i s t.state)

theorem completes_ret {s : State} (h : s.sp.val ≠ 0) : ∃ t, Completes .ret s t := by
  have hsp := s.sp.isLt
  obtain ⟨j, hj⟩ : ∃ j : Fin 16, s.sp.val = j.val + 1 := ⟨⟨s.sp.val - 1, by omega⟩, by simp only; omega⟩
  refine ⟨_, execRet_of_entry hj, fun j' hj' => ?_, id⟩
  obtain rfl : j' = j := Fin.ext (by omega)
  exact BitVec.toNat_add _ _

theorem completes_call {s : State} (h : s.sp.val ≠ 16) (nnn : Addr12) : ∃ t, Completes (.call nnn) s t := by
  have hsp := s.sp.isLt
  exact ⟨_, execCall_of_room (j := ⟨s.sp.val, by omega⟩) rfl nnn, zext16_toNat nnn, id⟩

theorem completes_jpV0 (nnn : Addr12) (s : State) : ∃ t, Completes (.jpV0 nnn) s t := by
  have hr := (s.reg 0).isLt
  have hv : ((s.reg 0).setWidth 16).toNat = (s.reg 0).toNat := by
    rw [BitVec.toNat_setWidth, Nat.mod_eq_of_lt (by omega)]
  refine ⟨_, rfl, ?_, id⟩
  rw [PcAfter, State.jump_pc, BitVec.toNat_add, zext16_toNat, hv]

/-- `Fx0A` waits where it stands, or takes the lowest key and moves on (R193). -/
theorem completes_ldVxK (x : Reg) (s : State) : ∃ t, Completes (.ldVxK x) s t := by
  obtain ⟨hn, -⟩ | ⟨k, hk, -⟩ := lowestKey_cases s
  · exact ⟨_, execLdVxK_of_noKey hn x, ⟨fun _ => rfl, fun ha => absurd ha hn⟩,
      fun _ => ⟨fun _ => rfl, fun ha => absurd ha hn⟩⟩
  · have ha := hk.anyKey
    exact ⟨_, execLdVxK_of_lowestKey hk x, ⟨fun hn => absurd ha hn, fun _ => pcPlus_advance s rfl⟩,
      fun _ => ⟨fun hn => absurd ha hn, fun _ => rfl⟩⟩

/-- Every instruction whose own check passes, or that has none, completes. -/
theorem completes_of_noFault {i : Instr} {s : State} (h : faultCause i s = none) : ∃ t, Completes i s t := by
  cases i
  case ret => exact completes_ret (check_passes h)
  case call nnn => exact completes_call (check_passes h) nnn
  case jp nnn => exact ⟨_, rfl, zext16_toNat nnn, id⟩
  case jpV0 nnn => exact completes_jpV0 nnn s
  case seImm | sneImm | seReg | sneReg => exact ⟨_, rfl, pcPlus_skipIf s (by simp), id⟩
  case skp => exact ⟨_, execSkp_of_validKey (check_passes h), pcPlus_skipIf s Iff.rfl, id⟩
  case sknp => exact ⟨_, execSknp_of_validKey (check_passes h), pcPlus_skipIf s (by simp), id⟩
  case cls => exact ⟨_, rfl, pcPlus_advance s rfl, fun _ => rfl⟩
  case drw x y n =>
    have hc := check_passes h
    exact ⟨_, execDrw_of_inBounds (by omega) x y, pcPlus_advance s rfl, fun _ => rfl⟩
  case ldVxK x => exact completes_ldVxK x s
  case ldB => exact ⟨_, storeAtIndex_of_inBounds (Nat.not_le.1 (check_passes h)), pcPlus_advance s rfl, id⟩
  case storeRegs x =>
    have hc := check_passes h
    exact ⟨_, storeAtIndex_of_inBounds (by rw [length_blockRegs]; omega), pcPlus_advance s rfl, id⟩
  case loadRegs =>
    refine ⟨_, execLoadRegs_of_inBounds (Nat.not_le.1 (check_passes h)), pcPlus_advance s ?_, ?_⟩
    · rw [State.setRegs_eq]
    · rw [State.setRegs_eq]; exact id
  -- every other instruction checks nothing, leaves STATE and moves on by 2
  all_goals exact ⟨_, rfl, pcPlus_advance s rfl, id⟩

/-! ## Everything an instruction can answer -/

theorem exec_total (i : Instr) (s : State) : ∃ t, exec i s = .next t := by
  cases h : faultCause i s with
  | some k => exact ⟨_, exec_of_faultCause h⟩
  | none => exact (completes_of_noFault h).imp fun _ ht => ht.1

/-- An answer is the fault that the check names, or a completion. -/
theorem exec_cases {i : Instr} {s t : State} (h : exec i s = .next t) :
    (∃ k, faultCause i s = some k ∧ t = { s with state := .halted k }) ∨
    (faultCause i s = none ∧ Completes i s t) := by
  cases hc : faultCause i s with
  | some k =>
    cases (exec_of_faultCause hc).symm.trans h
    exact .inl ⟨k, rfl, rfl⟩
  | none =>
    obtain ⟨u, hu⟩ := completes_of_noFault hc
    cases hu.1.symm.trans h
    exact .inr ⟨rfl, hu⟩

/-! ## What the revert of a one-shot signal leaves (R101) -/

/-- Which of the fetching STATEs a step finds makes no difference to it (R101, R111). -/
theorem fetchExecute_state (s : State) (e : ExecState) : fetchExecute { s with state := e } = fetchExecute s := rfl

theorem faultCause_state (i : Instr) (s : State) (e : ExecState) :
    faultCause i { s with state := e } = faultCause i s := by cases i <;> rfl

theorem stateAfter_state (i : Instr) (s : State) (e e' : ExecState) :
    StateAfter i { s with state := e } e' = StateAfter i s e' := by cases i <;> rfl

theorem Completes.stateAfter {i : Instr} {s t : State} (h : Completes i { s with state := .running } t) :
    StateAfter i s t.state := by
  obtain ⟨-, -, hst⟩ := h
  exact stateAfter_state i s .running _ ▸ hst rfl

/-- A completed instruction does not halt (R108). -/
theorem StateAfter.ne_halted {i : Instr} {s : State} {e : ExecState} (h : StateAfter i s e) (k : FaultKind) :
    e ≠ .halted k := by
  rintro rfl
  cases i
  case ldVxK =>
    by_cases ha : AnyKey s
    · cases h.2 ha
    · cases h.1 ha
  all_goals cases h

/-! ## A step that fetches -/

theorem step_of_pc {s : State} (hf : s.state.fetches = true) (hp : s.pc.toNat + 1 ≥ 4096) :
    step s = .next { s with state := .halted .fetchOutOfBounds } := by
  rw [step_of_fetches hf, fetchExecute_of_pc hp]

theorem step_of_illegal {s : State} (hf : s.state.fetches = true) (hp : s.pc.toNat + 1 < 4096) {r : Reject}
    (hd : decodeWord (fetchWord s) = .error r) : step s = .next { s with state := .halted .unknownOpcode } := by
  rw [step_of_fetches hf, fetchExecute_of_illegal hp hd]

theorem step_of_legal {s : State} (hf : s.state.fetches = true) (hp : s.pc.toNat + 1 < 4096) {i : Instr}
    (hd : decodeWord (fetchWord s) = .ok i) : step s = exec i { s with state := .running } := by
  rw [step_of_fetches hf, fetchExecute_of_legal hp hd]

/-- Everything a step can do, the answers of the instructions included: nothing, a wait's completion, a fault, which
changes STATE alone and is never LoadError, or an instruction that completes. -/
theorem step_outcomes {s t : State} (h : step s = .next t) :
    (t = s ∧ (s.state = .paused ∨ ∃ k, s.state = .halted k)) ∨
    (∃ x, s.state = .blocked x ∧ t = completeWait x s) ∨
    (s.state.fetches = true ∧ ∃ k, k ≠ .loadError ∧ t = { s with state := .halted k }) ∨
    (s.state.fetches = true ∧
      ∃ i, decodeWord (fetchWord s) = .ok i ∧ Completes i { s with state := .running } t) := by
  obtain hsame | hwait | ⟨hf, -, ht⟩ | ⟨hf, -, ht, -⟩ | ⟨hf, -, i, hd, hx⟩ := step_cases h
  · exact .inl hsame
  · exact .inr (.inl hwait)
  · exact .inr (.inr (.inl ⟨hf, _, FaultKind.noConfusion, ht⟩))
  · exact .inr (.inr (.inl ⟨hf, _, FaultKind.noConfusion, ht⟩))
  · obtain ⟨k, hk, ht⟩ | ⟨-, hc⟩ := exec_cases hx
    · exact .inr (.inr (.inl ⟨hf, k, faultCause_ne_loadError hk, ht⟩))
    · exact .inr (.inr (.inr ⟨hf, i, hd, hc⟩))

/-- A wait goes on or ends in Running (R110). -/
theorem state_completeWait {s : State} {x : Reg} (hs : s.state = .blocked x) :
    (¬ AnyKey s ∧ (completeWait x s).state = .blocked x) ∨ (AnyKey s ∧ (completeWait x s).state = .running) := by
  obtain ⟨hn, -⟩ | ⟨k, hk, -⟩ := lowestKey_cases s
  · rw [completeWait_of_noKey hn]; exact .inl ⟨hn, hs⟩
  · rw [completeWait_of_lowestKey hk]; exact .inr ⟨hk.anyKey, rfl⟩

theorem step_total (s : State) : ∃ t, step s = .next t := by
  cases hs : s.state with
  | paused => exact ⟨_, step_of_paused hs⟩
  | halted k => exact ⟨_, step_of_halted hs⟩
  | blocked r => exact ⟨_, step_of_blocked hs⟩
  | running | drawPending | clearPending =>
    have hf : s.state.fetches = true := by rw [hs]; rfl
    by_cases hp : s.pc.toNat + 1 < 4096
    · cases hd : decodeWord (fetchWord s) with
      | error r => exact ⟨_, step_of_illegal hf hp hd⟩
      | ok i => rw [step_of_legal hf hp hd]; exact exec_total i _
    · exact ⟨_, step_of_pc hf (Nat.le_of_not_lt hp)⟩

/-- Settles O37: `step_of_pc`, `step_of_illegal` and `step_of_legal` are the three stages, the last on either side of the
instruction's own check. -/
theorem faultsAreCheckedInOrder : Obligations.FaultsAreCheckedInOrder := by
  intro s hs
  have hf := fetches_iff.2 hs
  refine ⟨step_of_pc hf, fun hp => ⟨fun r => step_of_illegal hf hp, fun i hd => ?_⟩⟩
  rw [step_of_legal hf hp hd, ← faultCause_state i s .running]
  refine ⟨fun k hk => ⟨exec_of_faultCause hk, faultCause_ne_loadError hk⟩, fun hc => ?_⟩
  obtain ⟨t, ht, -, hst⟩ := completes_of_noFault hc
  exact ⟨t, ht, (hst rfl).ne_halted⟩

/-- Settles O38: of all that a step can do, only a fault of a fetching step newly ends in Halted. -/
theorem faultCommitsOnlyState : Obligations.FaultCommitsOnlyState := by
  intro s t k hs h hk
  obtain ⟨rfl, he | ⟨k', he⟩⟩ | ⟨x, he, rfl⟩ | ⟨-, k', hne, rfl⟩ | ⟨-, i, -, hc⟩ := step_outcomes h
  · cases he.symm.trans hk
  · exact absurd he (hs k')
  · obtain ⟨-, hx⟩ | ⟨-, hx⟩ := state_completeWait he <;> cases hx.symm.trans hk
  · cases hk; exact ⟨rfl, hne⟩
  · exact absurd hk (hc.stateAfter.ne_halted k)

/-- Settles O39: a completion has the table's PC, a fault keeps it, and the bound on PC is checked by the next fetch. -/
theorem pcFollowsTheTable : Obligations.PcFollowsTheTable := by
  intro i s t h
  obtain ⟨k, hk, rfl⟩ | ⟨hc, -, hpc, -⟩ := exec_cases h
  · exact ⟨fun hc => absurd (hk.symm.trans hc) (Option.some_ne_none k), fun _ => rfl⟩
  · exact ⟨fun _ => ⟨hpc, fun hge hs => step_of_pc (fetches_iff.2 hs) (Nat.succ_le_succ hge)⟩,
      fun hn => absurd hc hn⟩

/-- Settles O40: a completion from Running has the STATE of R108. -/
theorem stateFollowsTheInstruction : Obligations.StateFollowsTheInstruction := by
  intro i s t hs hc h
  obtain ⟨k, hk, -⟩ | ⟨-, -, -, hst⟩ := exec_cases h
  · cases hc.symm.trans hk
  · exact hst hs

/-! ## The transitions of STATE (R115) -/

/-- R115's column `step()` in the rows of the three states that fetch. -/
def FetchingTransition (s t : State) : Prop :=
  t.state = .running ∨ (∃ k, t.state = .halted k) ∨
  (t.state = .clearPending ∧ decodeWord (fetchWord s) = .ok .cls) ∨
  (t.state = .drawPending ∧ ∃ x y n, decodeWord (fetchWord s) = .ok (.drw x y n)) ∨
  ∃ x, t.state = .blocked x ∧ decodeWord (fetchWord s) = .ok (.ldVxK x) ∧ ¬ AnyKey s

theorem transition_step_of_fetches {s t : State} (hf : s.state.fetches = true) (h : FetchingTransition s t) :
    Transition .step s t := by
  unfold Transition
  obtain hs | hs | hs := fetches_iff.1 hf <;> rw [hs] <;> exact h

/-- A completed instruction that leaves Running is the one R115 names for the new STATE. -/
theorem StateAfter.fetchingTransition {i : Instr} {s t : State} (h : StateAfter i s t.state)
    (hd : decodeWord (fetchWord s) = .ok i) : FetchingTransition s t := by
  cases i
  case cls => exact .inr (.inr (.inl ⟨h, hd⟩))
  case drw x y n => exact .inr (.inr (.inr (.inl ⟨h, x, y, n, hd⟩)))
  case ldVxK x =>
    by_cases ha : AnyKey s
    · exact .inl (h.2 ha)
    · exact .inr (.inr (.inr (.inr ⟨x, h.1 ha, hd, ha⟩)))
  all_goals exact .inl h

theorem transition_step {s t : State} (h : step s = .next t) : Transition .step s t := by
  obtain ⟨rfl, he | ⟨k, he⟩⟩ | ⟨x, he, rfl⟩ | ⟨hf, k, -, rfl⟩ | ⟨hf, i, hd, hc⟩ := step_outcomes h
  · simp only [Transition, he]
  · simp only [Transition, he]
  · simp only [Transition, he]; exact state_completeWait he
  · exact transition_step_of_fetches hf (.inr (.inl ⟨k, rfl⟩))
  · exact transition_step_of_fetches hf (hc.stateAfter.fetchingTransition hd)

/-- A step transaction answers the state of the step and returns its STATE (R109). -/
theorem transact_step {s t : State} (h : step s = .next t) : transact .step s = .next (t, .state t.state) := by
  simp only [transact, h]

theorem transition_pause (s : State) : Transition .pause s (pause s) := by
  cases hs : s.state <;> simp [Transition, pause, hs]

theorem transition_resume (s : State) : Transition .resume s (resume s) := by
  cases hs : s.state <;> simp [Transition, resume, hs]

theorem transition_tick (s : State) : Transition .tick s (tick s).1 := by
  unfold tick
  split <;> exact ⟨rfl, rfl⟩

theorem transition_reset (font : Vector Byte 80) (rom : List Byte) (s : State) :
    Transition (.reset font rom) s (hostReset font rom s) := by
  by_cases h : rom.length ≤ 3584
  · simp only [Transition, if_pos h, hostReset_state_of_le h]
  · simp only [Transition, if_neg h, hostReset_state_of_gt (Nat.lt_of_not_le h)]

/-- Settles O55, one operation at a time; the step is `transition_step`. -/
theorem stateTransitionsFollowTheTable : Obligations.StateTransitionsFollowTheTable := by
  intro op s t r h
  cases op with
  | step =>
    obtain ⟨u, hu⟩ := step_total s
    rw [transact_step hu] at h
    cases h
    exact transition_step hu
  | reset font rom => cases h; exact transition_reset font rom s
  | tick => cases h; exact transition_tick s
  | pause => cases h; exact transition_pause s
  | resume => cases h; exact transition_resume s
  | setKeys | readDisplay | readStatus => cases h; exact ⟨rfl, rfl⟩

/-! ## One step (R101 to R103, R109, R110) -/

theorem decodeWord_of_decode {hi lo : Byte} {bs rest : List Byte} {i : Instr}
    (h : decode (hi :: lo :: bs) = .ok (i, rest)) : decodeWord (wordOfBytes hi lo) = .ok i := by
  simp only [decode] at h
  split at h
  · next hd => cases h; exact hd
  · cases h

/-- Settles O31: the bytes at PC are the fetched word. -/
theorem stepRunsTheDecodedInstruction : Obligations.StepRunsTheDecodedInstruction := by
  intro s hs hp
  have hf := fetches_iff.2 hs
  exact ⟨fun i rest h => step_of_legal hf hp (decodeWord_of_decode h), fun r => step_of_illegal hf hp⟩

/-- Settles O32: `step_of_pc`, and a word is its two bytes. -/
theorem fetchIsBoundedAndBigEndian : Obligations.FetchIsBoundedAndBigEndian :=
  fun _ => ⟨fun hs => step_of_pc (fetches_iff.2 hs), wordOfBytes_toNat _ _⟩

/-- Settles O33: the four ways a step begins; a fetching step takes no notice of which signal it reverts. -/
theorem stepFirstLooksAtState : Obligations.StepFirstLooksAtState := by
  intro s
  refine ⟨fun k => step_of_halted, step_of_paused, fun t => step_of_blocked, fun hs => ?_⟩
  rw [step_of_fetches (fetches_iff.2 (.inr hs)), step_of_fetches rfl, fetchExecute_state s .running]

/-- Settles O34: the two ways a wait goes on. -/
theorem blockedStepCompletesTheWait : Obligations.BlockedStepCompletesTheWait := by
  intro t s hs
  rw [step_of_blocked hs]
  refine ⟨fun hn => by rw [completeWait_of_noKey hn], fun k hk => ?_⟩
  rw [completeWait_of_lowestKey hk]
  exact ⟨_, rfl, reg_takeKey s t hk.1, rfl, pcPlus_advance s rfl, frame_takeKey s t k⟩

/-- The three fields of the status word are those of STATE (R34). -/
theorem statusWord_fields (s : State) : (statusWord s).toNat % 8 = s.state.tag ∧
    (statusWord s).toNat / 16 % 16 = s.state.blockedReg ∧ (statusWord s).toNat / 256 = s.state.errorCode := by
  have ht := s.state.tag_lt
  have hb := s.state.blockedReg_lt
  rw [statusWord_toNat]
  omega

/-- Settles O36: `step_total`, and the fields of the status word. -/
theorem stepAnswersItsState : Obligations.StepAnswersItsState := by
  intro s
  obtain ⟨t, ht⟩ := step_total s
  exact ⟨t, ht, transact_step ht, rfl, statusWord_fields t⟩

end Sys2Proof.Machine

/-!
PROOFS. The control-flow family (spec/41_control_flow.md R120 to R127): return, jumps, call and skips, each with the word it
decodes from. The decoder's side is one lemma for every instruction, `decodeWord_encode`.
-/

namespace Sys2Proof

/-! ## The decoder undoes the encoder (spec/30_encoding.md R72, R74) -/

/-- Each format's fields come back, so the high nibble and the selector lead to the instruction's own arm. -/
theorem decodeWord_encode {i : Instr} (h : WellFormed i = true) : decodeWord (encode i) = .ok i := by
  cases i
  case cls | ret => rfl
  case jp | call | ldI | jpV0 => simp [encode, decodeWord, fields_encodeA]
  case seImm | sneImm | ldImm | addImm | rnd => simp [encode, decodeWord, fields_encodeXI]
  case seReg | sneReg => simp [encode, decodeWord, fields_encodeXYN]
  case ldReg | orReg | andReg | xorReg | addReg | subReg | shr | subnReg | shl =>
    simp [encode, decodeWord, decodeFamily8, fields_encodeXYN]
  case drw x y n =>
    have hn : n < 16 := by simpa [WellFormed] using h
    simp [encode, decodeWord, fieldN, fields_encodeXYN, hn]
  case skp | sknp => simp [encode, decodeWord, decodeFamilyE, fields_encodeXS]
  case ldVxDt | ldVxK | ldDtVx | ldStVx | addI | ldF | ldB | storeRegs | loadRegs =>
    simp [encode, decodeWord, decodeFamilyF, fields_encodeXS]

end Sys2Proof

namespace Sys2Proof.Machine

/-- The form for the spec's `base | …` words, which `wordA_eq_encode` and its siblings show to be the encoder's. -/
theorem decodeWord_of_eq_encode {w : Word} {i : Instr} (h : w = encode i) (hi : WellFormed i = true) :
    decodeWord w = .ok i := h ▸ decodeWord_encode hi

/-! ## The stack (R120, R122) -/

/-- A push writes its own entry and no other (spec/10_state.md R26). -/
theorem State.entry_of_stack_set {s t : State} {j : Fin 16} {w : Word} (h : t.stack = s.stack.set j.val w) (k : Fin 16) :
    t.entry k = if k = j then w else s.entry k := by
  simp only [State.entry, h, Vector.getElem_set, Fin.ext_iff, eq_comm]

/-- A return and a call write PC, the stack and SP. -/
theorem frame_stack (s : State) (w : Word) (stack : Vector Word 16) (sp : Fin 17) :
    Frame [] [.stack] s (State.jump w { s with stack := stack, sp := sp }) :=
  ⟨fun _ _ => rfl, fun _ _ => rfl, fun _ => rfl, fun h => absurd (by simp) h, fun _ => rfl, fun _ => rfl,
    fun _ _ => rfl, fun _ => rfl, fun _ => rfl, rfl, rfl⟩

/-- Settles O6: `execRet_of_empty` and `execRet_of_entry` are the two sides of the check on SP. -/
theorem retReturnsBehindTheCall : Obligations.RetReturnsBehindTheCall := by
  refine ⟨decodeWord_encode (i := .ret) rfl, fun s => ⟨execRet_of_empty, fun j hj => ?_⟩⟩
  exact ⟨_, execRet_of_entry hj, rfl, BitVec.toNat_add _ _, fun _ => rfl, frame_stack s _ s.stack _⟩

/-- Settles O8: `execCall_of_full` and `execCall_of_room` are the two sides of the check on SP. -/
theorem callPushesItsOwnAddress : Obligations.CallPushesItsOwnAddress := by
  intro nnn s
  refine ⟨decodeWord_of_eq_encode (wordA_eq_encode (fam := 2) (by decide) nnn) rfl,
    fun h => execCall_of_full h nnn, fun j hj => ?_⟩
  refine ⟨_, execCall_of_room hj nnn, ?own, rfl, zext16_toNat nnn, fun k hk => ?others, frame_stack s _ _ _⟩
  case own => rw [State.entry_of_stack_set rfl, if_pos rfl]
  case others => rw [State.entry_of_stack_set rfl, if_neg hk]

/-! ## Jumps (R121, R127) -/

/-- A jump to 4095 or behind succeeds, and the step after it faults (R102). -/
theorem step_jump_of_ge {s : State} {w : Word} (h : w.toNat ≥ 4095) (hs : s.state = .running) :
    step (s.jump w) = .next { s.jump w with state := .halted .fetchOutOfBounds } :=
  step_of_pc (fetches_iff.2 (.inl hs)) (Nat.succ_le_succ h)

/-- Settles O7: the target is written as it stands, and the bound is the next fetch's. -/
theorem jpJumpsToItsAddress : Obligations.JpJumpsToItsAddress := by
  intro nnn s
  have hpc : (zext16 nnn).toNat = nnn.toNat := zext16_toNat nnn
  refine ⟨decodeWord_of_eq_encode (wordA_eq_encode (fam := 1) (by decide) nnn) rfl,
    _, rfl, hpc, frame_pc s _, ?fault, ?lastWord⟩
  case fault =>
    rintro rfl hs
    exact step_jump_of_ge (by decide) hs
  case lastWord =>
    rintro rfl
    exact wordOfBytes_toNat _ _

/-- Settles O11: the sum of a byte and 12 bits is below 65536, and the bound is the next fetch's. -/
theorem computedJumpAddsV0 : Obligations.ComputedJumpAddsV0 := by
  intro nnn s
  have hv := (s.reg 0).isLt
  have hn := nnn.isLt
  obtain ⟨t, ht, hmod, -⟩ := completes_jpV0 nnn s
  have hsum : t.pc.toNat = (s.reg 0).toNat + nnn.toNat := hmod.trans (Nat.mod_eq_of_lt (by omega))
  refine ⟨decodeWord_of_eq_encode (wordA_eq_encode (fam := 0xB) (by decide) nnn) rfl, t, ht, hmod, hsum, ?_⟩
  cases ht
  exact ⟨frame_pc s _, fun hge hs => step_jump_of_ge (hsum.symm ▸ hge) hs⟩

/-! ## Skips (R123 to R126) -/

/-- What a skip answers, for any condition `P` that its Bool says. -/
theorem skipIf_moves {c : Bool} {P : Prop} [Decidable P] (h : c = true ↔ P) (s : State) :
    ∃ t, (.next (s.skipIf c) : Result) = .next t ∧ PcPlus (if P then 4 else 2) s t ∧ Frame [] [] s t :=
  ⟨_, rfl, pcPlus_skipIf s h, frame_pc s _⟩

theorem beq_iff_toNat_eq (a b : Byte) : (a == b) = true ↔ a.toNat = b.toNat := by
  rw [beq_iff_eq, BitVec.toNat_inj]

theorem bne_iff_toNat_ne (a b : Byte) : (a != b) = true ↔ a.toNat ≠ b.toNat := by
  rw [bne_iff_ne, Ne, Ne, BitVec.toNat_inj]

/-- Settles O9: both are `skipIf`, on Vx and nn compared as numbers. -/
theorem immediateSkips : Obligations.ImmediateSkips := fun x nn s =>
  ⟨decodeWord_of_eq_encode (wordXI_eq_encode (fam := 3) (by decide) x nn) rfl,
    decodeWord_of_eq_encode (wordXI_eq_encode (fam := 4) (by decide) x nn) rfl,
    skipIf_moves (beq_iff_toNat_eq _ _) s, skipIf_moves (bne_iff_toNat_ne _ _) s⟩

/-- Settles O10: both are `skipIf`, on Vx and Vy compared as numbers. -/
theorem registerSkips : Obligations.RegisterSkips := fun x y s =>
  ⟨decodeWord_of_eq_encode (wordXY_eq_encode (fam := 5) (n := 0) (by decide) x y (by decide)) rfl,
    decodeWord_of_eq_encode (wordXY_eq_encode (fam := 9) (n := 0) (by decide) x y (by decide)) rfl,
    skipIf_moves (beq_iff_toNat_eq _ _) s, skipIf_moves (bne_iff_toNat_ne _ _) s⟩

end Sys2Proof.Machine

/-!
PROOFS. The register-ALU family (spec/42_register_alu.md R140 to R150). Every instruction of it is one of two updates: a
write of Vx, or a write of VF and then of Vx (R106). What each update answers is one lemma; an instruction adds its word and
the arithmetic of its result and flag.
-/

namespace Sys2Proof.Machine

/-- The words of family 8: the selector is the low nibble of the base (spec/30_encoding.md R84). -/
theorem decodeWord_family8 (n : Nat) (hn : n < 16) {x y : Reg} {i : Instr} (h : encode i = encodeXYN 8 x y n)
    (hi : WellFormed i = true) : decodeWord (wordXY (BitVec.ofNat 16 (8 * 4096 + n)) x y) = .ok i :=
  decodeWord_of_eq_encode ((wordXY_eq_encode (by decide) x y hn).trans h.symm) hi

/-! ## Loads, the immediate sum and the logic: a write of Vx (R140 to R145) -/

/-- What a write of Vx answers, for any property `P` of the byte written. -/
theorem setReg_moves {P : Byte → Prop} {b : Byte} (h : P b) (x : Reg) (s : State) :
    ∃ t, (.next (s.setReg x b).advance : Result) = .next t ∧ P (t.reg x) ∧ PcPlus 2 s t ∧ Frame [x] [] s t :=
  ⟨_, rfl, by rwa [State.reg_advance, State.reg_setReg_self], pcPlus_advance s rfl, frame_setReg s x b⟩

/-- Settles O13: both write Vx, the one nn and the other Vy. -/
theorem loadsWriteVx : Obligations.LoadsWriteVx := fun x y nn s =>
  ⟨decodeWord_of_eq_encode (wordXI_eq_encode (fam := 6) (by decide) x nn) rfl, decodeWord_family8 0 (by decide) rfl rfl,
    setReg_moves (P := (· = nn)) rfl x s, setReg_moves (P := (· = s.reg y)) rfl x s⟩

/-- Settles O14: the byte written is the sum modulo 256. -/
theorem addImmediateWraps : Obligations.AddImmediateWraps := fun x nn s =>
  ⟨decodeWord_of_eq_encode (wordXI_eq_encode (fam := 7) (by decide) x nn) rfl,
    setReg_moves (P := (·.toNat = ((s.reg x).toNat + nn.toNat) % 256)) (BitVec.toNat_add _ _) x s⟩

/-- What a write of Vx answers, for a byte given bit by bit. -/
theorem setReg_moves_bits {b : Byte} {bit : Nat → Bool} (h : ∀ k, b.getLsbD k = bit k) (x : Reg) (s : State) :
    ∃ t, (.next (s.setReg x b).advance : Result) = .next t ∧ PcPlus 2 s t ∧ Frame [x] [] s t ∧
      ∀ k, k < 8 → (t.reg x).getLsbD k = bit k := by
  obtain ⟨t, ht, hb, hpc, hframe⟩ := setReg_moves (P := (· = b)) rfl x s
  exact ⟨t, ht, hpc, hframe, fun k _ => hb ▸ h k⟩

/-- Settles O15: each writes Vx alone, with the bits of the operation. -/
theorem logicIsBitwiseAndLeavesVF : Obligations.LogicIsBitwiseAndLeavesVF := fun x _ s =>
  ⟨decodeWord_family8 1 (by decide) rfl rfl, decodeWord_family8 2 (by decide) rfl rfl,
    decodeWord_family8 3 (by decide) rfl rfl,
    setReg_moves_bits (fun _ => BitVec.getLsbD_or) x s, setReg_moves_bits (fun _ => BitVec.getLsbD_and) x s,
    setReg_moves_bits (fun _ => BitVec.getLsbD_xor) x s⟩

/-! ## Sum, differences and shifts: a write of VF, then of Vx (R146 to R150) -/

/-- What a write of VF and then of Vx answers, the flag and the result given as numbers. -/
theorem setFlagThenReg_moves {flag b : Byte} {f n : Nat} (hb : b.toNat = n) (hf : flag.toNat = f) (x : Reg) (s : State) :
    ∃ t, (.next (s.setFlagThenReg flag x b).advance : Result) = .next t ∧ (t.reg x).toNat = n ∧
      (x ≠ 15 → (t.reg 15).toNat = f) ∧ PcPlus 2 s t ∧ Frame [15, x] [] s t :=
  ⟨_, rfl, by rw [reg_setFlagThenReg_self, hb], fun hx => by rw [vf_setFlagThenReg s hx, hf], pcPlus_advance s rfl,
    frame_setFlagThenReg s x flag b⟩

theorem carryFlag_toNat (a b : Byte) : (carryFlag a b).toNat = if a.toNat + b.toNat > 255 then 1 else 0 := by
  simp only [carryFlag, flagByte_toNat, decide_eq_true_eq]

theorem noBorrowFlag_toNat (a b : Byte) : (noBorrowFlag a b).toNat = if a.toNat ≥ b.toNat then 1 else 0 := by
  simp only [noBorrowFlag, flagByte_toNat, decide_eq_true_eq]

/-- The spec's order of the difference: `a + 256 - b`, reduced (R147). -/
theorem byte_sub_toNat (a b : Byte) : (a - b).toNat = (a.toNat + 256 - b.toNat) % 256 := by
  have hb := b.isLt
  rw [BitVec.toNat_sub]
  omega

theorem byte_shiftRight_one_toNat (a : Byte) : (a >>> 1).toNat = a.toNat / 2 := by
  rw [BitVec.toNat_ushiftRight, Nat.shiftRight_eq_div_pow, Nat.pow_one]

theorem byte_shiftLeft_one_toNat (a : Byte) : (a <<< 1).toNat = a.toNat * 2 % 256 := by
  rw [BitVec.toNat_shiftLeft, Nat.shiftLeft_eq, Nat.pow_one]

/-- Settles O16: the flag is the carry, the result the sum modulo 256. -/
theorem addSetsCarry : Obligations.AddSetsCarry := fun x _ s =>
  ⟨decodeWord_family8 4 (by decide) rfl rfl, setFlagThenReg_moves (BitVec.toNat_add _ _) (carryFlag_toNat _ _) x s⟩

/-- Settles O17: one difference and its flag, with the operands in either order. -/
theorem subtractionsSetNoBorrow : Obligations.SubtractionsSetNoBorrow := fun x _ s =>
  ⟨decodeWord_family8 5 (by decide) rfl rfl, decodeWord_family8 7 (by decide) rfl rfl,
    setFlagThenReg_moves (byte_sub_toNat _ _) (noBorrowFlag_toNat _ _) x s,
    setFlagThenReg_moves (byte_sub_toNat _ _) (noBorrowFlag_toNat _ _) x s⟩

/-- Settles O18: the flag is the bit shifted out, and y is in the word alone. -/
theorem shiftsMoveOneBitToVF : Obligations.ShiftsMoveOneBitToVF := fun x _ s =>
  ⟨decodeWord_family8 6 (by decide) rfl rfl, decodeWord_family8 0xE (by decide) rfl rfl,
    setFlagThenReg_moves (byte_shiftRight_one_toNat _) (lsbFlag_toNat _) x s,
    setFlagThenReg_moves (byte_shiftLeft_one_toNat _) (msbFlag_toNat _) x s⟩

end Sys2Proof.Machine

/-!
PROOFS. The index-register and memory-transfer family (spec/43_index_memory.md R160 to R165): writes of I, and the stores and
the load through I. What each update answers is one lemma; an instruction adds its word and the bytes it moves. The fault
clauses are `exec_of_faultCause`.
-/

namespace Sys2Proof.Machine

/-- The words of family F: the selector is the low byte of the base (spec/30_encoding.md R84). -/
theorem decodeWord_familyF (sel : Nat) (hs : sel < 256) {x : Reg} {i : Instr} (h : encode i = encodeXS 0xF x sel)
    (hi : WellFormed i = true) : decodeWord (wordX (BitVec.ofNat 16 (0xF * 4096 + sel)) x) = .ok i :=
  decodeWord_of_eq_encode ((wordXS_eq_encode (by decide) hs x).trans h.symm) hi

/-! ## Writes of I (R160 to R162) -/

/-- What a write of I answers, the value given as a number. -/
theorem setIndex_moves {w : Word} {n : Nat} (h : w.toNat = n) (s : State) :
    ∃ t, (.next (State.advance { s with i := w }) : Result) = .next t ∧ t.i.toNat = n ∧ PcPlus 2 s t ∧
      Frame [] [.index] s t :=
  ⟨_, rfl, h, pcPlus_advance s rfl, frame_index s w⟩

theorem word_add_byte_toNat (w : Word) (b : Byte) : (w + b.setWidth 16).toNat = (w.toNat + b.toNat) % 65536 := by
  rw [BitVec.toNat_add, BitVec.toNat_setWidth, Nat.add_mod_mod]

/-- The product of a byte and 5 is below 65536, so it is written whole. -/
theorem glyphAddress_toNat (b : Byte) : (BitVec.ofNat 16 (b.toNat * Config.glyphBytes)).toNat = b.toNat * 5 := by
  have hb := b.isLt
  rw [BitVec.toNat_ofNat, Nat.mod_eq_of_lt (by simp only [Config.glyphBytes]; omega)]

/-- Settles O20: the three writes of I. -/
theorem indexRegisterWrites : Obligations.IndexRegisterWrites := fun nnn _ s =>
  ⟨decodeWord_of_eq_encode (wordA_eq_encode (fam := 0xA) (by decide) nnn) rfl,
    decodeWord_familyF 0x1E (by decide) rfl rfl, decodeWord_familyF 0x29 (by decide) rfl rfl,
    setIndex_moves (zext16_toNat nnn) s, setIndex_moves (word_add_byte_toNat _ _) s,
    setIndex_moves (glyphAddress_toNat _) s⟩

/-! ## Stores through I (R163, R164) -/

/-- A store inside memory: byte `j` of the list lands at `I + j`, and the range written is all that changes. -/
theorem storeAtIndex_moves {bs : List Byte} {s : State} (h : s.i.toNat + bs.length ≤ 4096) :
    ∃ t, storeAtIndex bs s = .next t ∧ (∀ j, j < bs.length → t.byte (s.i.toNat + j) = bs.getD j 0) ∧
      (∀ a, a < s.i.toNat ∨ s.i.toNat + bs.length ≤ a → t.byte a = s.byte a) ∧ PcPlus 2 s t ∧ Frame [] [.memory] s t := by
  have hread := Memory.read_writeBytes h s.mem
  refine ⟨_, storeAtIndex_of_inBounds (by omega), fun j hj => ?inside, fun a ha => ?outside, pcPlus_advance s rfl,
    frame_memory s _⟩
  case inside => rw [State.byte, State.advance_mem, hread, if_pos (by omega), Nat.add_sub_cancel_left]
  case outside => rw [State.byte, State.advance_mem, hread, if_neg (by omega), State.byte]

@[simp] theorem length_bcdDigits (b : Byte) : (bcdDigits b).length = 3 := rfl

/-- The digits of a byte, as numbers: each is below 256 and so kept whole. -/
theorem bcdDigits_toNat (b : Byte) :
    ((bcdDigits b).getD 0 0).toNat = b.toNat / 100 ∧ ((bcdDigits b).getD 1 0).toNat = b.toNat / 10 % 10 ∧
      ((bcdDigits b).getD 2 0).toNat = b.toNat % 10 := by
  have hb := b.isLt
  exact ⟨Nat.mod_eq_of_lt (by omega), Nat.mod_eq_of_lt (by omega), Nat.mod_eq_of_lt (by omega)⟩

/-- Settles O21: the store of the three digits. -/
theorem decimalDigitsAreStored : Obligations.DecimalDigitsAreStored := by
  intro x s
  refine ⟨decodeWord_familyF 0x33 (by decide) rfl rfl, fun h => exec_of_faultCause (if_pos h), fun h => ?_⟩
  obtain ⟨t, ht, hdigit, hother, hpc, hframe⟩ := storeAtIndex_moves (bs := bcdDigits (s.reg x)) h
  obtain ⟨hundreds, tens, ones⟩ := bcdDigits_toNat (s.reg x)
  refine ⟨t, ht, ?_, ?_, ?_, hother, hpc, hframe⟩
  · rw [← hundreds, ← hdigit 0 (by simp), Nat.add_zero]
  · rw [← tens, ← hdigit 1 (by simp)]
  · rw [← ones, ← hdigit 2 (by simp)]

/-- What `Fx55` answers when its range lies in memory. -/
theorem storeRegs_moves {x : Reg} {s : State} (h : s.i.toNat + x.val < 4096) :
    ∃ t, exec (.storeRegs x) s = .next t ∧ (∀ j : Reg, j ≤ x → t.byte (s.i.toNat + j.val) = s.reg j) ∧
      (∀ a, a < s.i.toNat ∨ s.i.toNat + x.val < a → t.byte a = s.byte a) ∧ PcPlus 2 s t ∧ Frame [] [.memory] s t := by
  have hlen := length_blockRegs s x
  obtain ⟨t, ht, hreg, hother, hpc, hframe⟩ := storeAtIndex_moves (bs := blockRegs s x) (s := s) (by omega)
  refine ⟨t, ht, fun j hj => ?_, fun a ha => hother a (by omega), hpc, hframe⟩
  have hj' : j.val ≤ x.val := hj
  rw [hreg j.val (by omega), getD_blockRegs s hj]

/-- Settles O22: `storeRegs_moves`, and the fault on the other side of the check. -/
theorem registersAreStored : Obligations.RegistersAreStored := fun _ _ =>
  ⟨decodeWord_familyF 0x55 (by decide) rfl rfl, fun h => exec_of_faultCause (if_pos h), storeRegs_moves⟩

/-! ## The load through I (R165) -/

/-- A change of general registers alone. -/
theorem frame_regs {rs : List Reg} {s : State} {v : Vector Byte 16}
    (h : ∀ r, r ∉ rs → State.reg { s with v := v } r = s.reg r) : Frame rs [] s (State.advance { s with v := v }) :=
  ⟨h, fun _ _ => rfl, fun _ => rfl, fun _ => ⟨rfl, fun _ => rfl⟩, fun _ => rfl, fun _ => rfl, fun _ _ => rfl,
    fun _ => rfl, fun _ => rfl, rfl, rfl⟩

/-- A block of bytes read from `a` into V0 to Vx: each register of the block takes its own byte, the others keep theirs. -/
theorem State.reg_setRegs_readBytes (s : State) (m : Memory) (a : Nat) (x r : Reg) :
    (s.setRegs 0 (Memory.readBytes m a (x.val + 1))).reg r = if r ≤ x then Memory.read m (a + r.val) else s.reg r := by
  rw [State.reg_setRegs, Memory.length_readBytes]
  by_cases h : r ≤ x
  · have hr : r.val ≤ x.val := h
    rw [if_pos (by omega), if_pos h, Nat.sub_zero, Memory.getD_readBytes _ _ _ _ (by omega)]
  · have hr : ¬ r.val ≤ x.val := h
    rw [if_neg (by omega), if_neg h]

/-- What `Fx65` answers when its range lies in memory. -/
theorem loadRegs_moves {x : Reg} {s : State} (h : s.i.toNat + x.val < 4096) :
    ∃ t, exec (.loadRegs x) s = .next t ∧ (∀ j : Reg, j ≤ x → t.reg j = s.byte (s.i.toNat + j.val)) ∧
      (∀ j : Reg, x < j → t.reg j = s.reg j) ∧ PcPlus 2 s t ∧ Frame (regsUpTo x) [] s t := by
  have hreg := State.reg_setRegs_readBytes s s.mem s.i.toNat x
  have hloaded := execLoadRegs_of_inBounds h
  rw [State.setRegs_eq] at hreg hloaded
  refine ⟨_, hloaded, fun j hj => (hreg j).trans (if_pos hj), fun j hj => (hreg j).trans (if_neg (not_le.2 hj)),
    pcPlus_advance s rfl, frame_regs fun r hr => (hreg r).trans (if_neg fun hle => hr (mem_regsUpTo.2 hle))⟩

/-- The load with the same I and x reads the bytes that the store wrote; no register matters to it. -/
theorem loadRegs_of_storeRegs {x : Reg} {s t : State} (v : Vector Byte 16) (h : s.i.toNat + x.val < 4096)
    (hstore : exec (.storeRegs x) s = .next t) :
    ∃ u, exec (.loadRegs x) { t with v := v } = .next u ∧ u.i = s.i ∧ ∀ j : Reg, j ≤ x → u.reg j = s.reg j := by
  obtain ⟨t', ht', hstored, -, -, hframe⟩ := storeRegs_moves h
  cases ht'.symm.trans hstore
  have hi : t.i = s.i := hframe.index (by decide)
  obtain ⟨u, hu, hloaded, -, -, hframe'⟩ := loadRegs_moves (x := x) (s := { t with v := v }) (hi ▸ h)
  have hi' : u.i = t.i := hframe'.index (by decide)
  refine ⟨u, hu, hi'.trans hi, fun j hj => ?_⟩
  calc u.reg j = t.byte (t.i.toNat + j.val) := hloaded j hj
    _ = t.byte (s.i.toNat + j.val) := by rw [hi]
    _ = s.reg j := hstored j hj

/-- Settles O23: `loadRegs_moves` with the fault on the other side of the check, and `loadRegs_of_storeRegs`. -/
theorem registersAreLoaded : Obligations.RegistersAreLoaded := fun _ _ =>
  ⟨decodeWord_familyF 0x65 (by decide) rfl rfl, fun h => exec_of_faultCause (if_pos h), loadRegs_moves,
    fun _ v h hstore => loadRegs_of_storeRegs v h hstore⟩

end Sys2Proof.Machine

/-!
PROOFS. The display family (spec/44_display.md R181 to R184): the clear, and the draw on either side of its check. What a
draw answers is stated over the list of cells it inverts; `mem_drwCells` says which columns and rows those are.
-/

namespace Sys2Proof.Machine

/-! ## The clear (R183) -/

theorem frame_clear (s : State) (d : Display) :
    Frame [] [.display, .state] s (State.advance { s with disp := d, state := .clearPending }) :=
  ⟨fun _ _ => rfl, fun _ _ => rfl, fun _ => rfl, fun _ => ⟨rfl, fun _ => rfl⟩, fun _ => rfl, fun _ => rfl,
    fun h => absurd (by simp) h, fun h => absurd (by simp) h, fun _ => rfl, rfl, rfl⟩

/-- Settles O25: no cell of `Display.clear` is set. -/
theorem clsClearsEveryCell : Obligations.ClsClearsEveryCell :=
  ⟨decodeWord_encode (i := .cls) rfl, fun s =>
    ⟨_, rfl, fun k _ => Display.cell_clear k, rfl, pcPlus_advance s rfl, frame_clear s _⟩⟩

/-! ## The draw (R181, R182, R184) -/

/-- What `Dxyn` answers when it draws nothing or its rows lie in memory. -/
theorem drw_moves {n : Nat} {s : State} (h : n = 0 ∨ s.i.toNat + n - 1 < 4096) (x y : Reg) :
    ∃ t, exec (.drw x y n) s = .next t ∧
      (∀ k, t.cell k = if k ∈ drwCells x y n s then !s.cell k else s.cell k) ∧
      t.reg 15 = (if ∃ k ∈ drwCells x y n s, s.cell k = true then 1 else 0) ∧
      t.state = .drawPending ∧ PcPlus 2 s t ∧ Frame [15] [.display, .state] s t := by
  obtain ⟨hcells, hflag⟩ := drawCells_drwCells (s := s) x y n
  refine ⟨_, execDrw_of_inBounds h x y, hcells, ?flag, rfl, pcPlus_advance s rfl, frame_draw s _ _⟩
  case flag =>
    simp only [← hflag]
    exact State.reg_setReg_self s vf _

/-- A draw's collision, by column and row: each cell it visits is one of the 64 by 32. -/
theorem exists_mem_drwCells {x y : Reg} {n : Nat} {s : State} {P : Nat → Prop} :
    (∃ k ∈ drwCells x y n s, P k) ↔
      ∃ col row, col < 64 ∧ row < 32 ∧ SpriteCovers s (s.reg x).toNat (s.reg y).toNat n col row ∧
        P (row * 64 + col) := by
  constructor
  · rintro ⟨k, hk, hP⟩
    have hlt : k < 2048 := spriteCells_lt hk
    have hcol : k % 64 < 64 := Nat.mod_lt k (by decide)
    have hrow : k / 64 < 32 := by omega
    rw [← Nat.div_add_mod' k 64] at hk hP
    exact ⟨k % 64, k / 64, hcol, hrow, (mem_drwCells hcol hrow).1 hk, hP⟩
  · rintro ⟨col, row, hcol, hrow, hcover, hP⟩
    exact ⟨_, (mem_drwCells hcol hrow).2 hcover, hP⟩

/-- Settles O26: `drw_moves`, with the cells named by column and row, and the fault on the other side of the check. -/
theorem drawInvertsTheCoveredCells : Obligations.DrawInvertsTheCoveredCells := by
  intro x y n s hn
  refine ⟨decodeWord_of_eq_encode (wordXYN_eq_encode (fam := 0xD) (by decide) x y hn) (decide_eq_true hn),
    fun h0 h => exec_of_faultCause (if_pos ⟨h0, h⟩), fun h => ?_⟩
  obtain ⟨t, ht, hcell, hflag, hstate, hpc, hframe⟩ := drw_moves h x y
  refine ⟨t, ht, fun col row hcol hrow => ?cells, fun hhit => ?hit, fun hmiss => ?noHit, hstate, hpc,
    hframe⟩
  case cells =>
    have hmem := mem_drwCells (x := x) (y := y) (n := n) (s := s) hcol hrow
    exact ⟨fun hc => (hcell _).trans (if_pos (hmem.2 hc)), fun hc => (hcell _).trans (if_neg (mt hmem.1 hc))⟩
  case hit => exact hflag.trans (if_pos (exists_mem_drwCells.2 hhit))
  case noHit =>
    refine hflag.trans (if_neg (mt exists_mem_drwCells.1 ?_))
    rintro ⟨col, row, hcol, hrow, hcover, hset⟩
    exact Bool.false_ne_true ((hmiss col row hcol hrow hcover).symm.trans hset)

end Sys2Proof.Machine

/-!
PROOFS. The key and timer family (spec/45_keys_timers.md R190 to R195): the skips on either side of the check on Vx, the moves
between Vx and a timer, and the two ways a key wait begins.
-/

namespace Sys2Proof.Machine

/-! ## Key skips (R190, R191) -/

/-- Settles O28: below 16 both are `skipIf`, on the latch's bit and on its negation; the faults are the failing check's. -/
theorem keySkipsReadTheLatch : Obligations.KeySkipsReadTheLatch := by
  intro x s
  refine ⟨decodeWord_of_eq_encode (wordXS_eq_encode (fam := 0xE) (sel := 0x9E) (by decide) (by decide) x) rfl,
    decodeWord_of_eq_encode (wordXS_eq_encode (fam := 0xE) (sel := 0xA1) (by decide) (by decide) x) rfl,
    fun h => ⟨exec_of_faultCause (if_pos h), exec_of_faultCause (if_pos h)⟩, fun h => ⟨?pressed, ?notPressed⟩⟩
  case pressed => exact ⟨_, execSkp_of_validKey (Nat.not_le.2 h), pcPlus_skipIf s Iff.rfl, frame_pc s _⟩
  case notPressed =>
    have hnot : (!s.key (s.reg x).toNat) = true ↔ s.key (s.reg x).toNat = false :=
      iff_of_eq (Bool.not_eq_true' _)
    exact ⟨_, execSknp_of_validKey (Nat.not_le.2 h), pcPlus_skipIf s hnot, frame_pc s _⟩

/-! ## Timer moves (R192, R194, R195) -/

theorem frame_delayTimer (s : State) (b : Byte) : Frame [] [.delayTimer] s (State.advance { s with dt := b }) :=
  ⟨fun _ _ => rfl, fun _ _ => rfl, fun _ => rfl, fun _ => ⟨rfl, fun _ => rfl⟩, fun h => absurd (by simp) h, fun _ => rfl,
    fun _ _ => rfl, fun _ => rfl, fun _ => rfl, rfl, rfl⟩

theorem frame_soundTimer (s : State) (b : Byte) : Frame [] [.soundTimer] s (State.advance { s with st := b }) :=
  ⟨fun _ _ => rfl, fun _ _ => rfl, fun _ => rfl, fun _ => ⟨rfl, fun _ => rfl⟩, fun _ => rfl, fun h => absurd (by simp) h,
    fun _ _ => rfl, fun _ => rfl, fun _ => rfl, rfl, rfl⟩

/-- Settles O29: a write of Vx, of DT and of ST, each with its own frame. -/
theorem timerMoves : Obligations.TimerMoves := fun x s =>
  ⟨decodeWord_familyF 0x07 (by decide) rfl rfl, decodeWord_familyF 0x15 (by decide) rfl rfl,
    decodeWord_familyF 0x18 (by decide) rfl rfl,
    setReg_moves (P := (· = s.dt)) rfl x s,
    ⟨_, rfl, rfl, pcPlus_advance s rfl, frame_delayTimer s (s.reg x)⟩,
    ⟨_, rfl, rfl, pcPlus_advance s rfl, frame_soundTimer s (s.reg x)⟩⟩

/-! ## The key wait (R193) -/

/-- Settles O30: `execLdVxK_of_noKey` and `execLdVxK_of_lowestKey` are the two sides; a key's number fits in a byte. -/
theorem keyWaitTakesTheLowestKey : Obligations.KeyWaitTakesTheLowestKey := by
  intro x s
  refine ⟨decodeWord_familyF 0x0A (by decide) rfl rfl, fun hn => execLdVxK_of_noKey hn x, fun k hk => ?_⟩
  have hlt : k < 16 := hk.1
  exact ⟨_, execLdVxK_of_lowestKey hk x, reg_takeKey s x hlt, rfl, pcPlus_advance s rfl, frame_takeKey s x k⟩

end Sys2Proof.Machine

/-!
PROOFS. The family of the host's operations (spec/60_exceptions.md): the timers' tick (R210 to R212), the key latch (R214), the
ports (R215, R216), pause and resume (R217, R218), and the way out of Halted (R206).
-/

namespace Sys2Proof.Machine

/-! ## What each operation answers -/

theorem not_counts_iff {e : ExecState} : e.counts = false ↔ e = .paused ∨ ∃ k, e = .halted k := by
  cases e <;> simp [ExecState.counts]

/-- A tick beeps exactly when it counts ST from 1 to 0 (R210, R212). -/
theorem tick_beep_iff (s : State) : (tick s).2 = true ↔ s.state.counts = true ∧ s.st.toNat = 1 := by
  cases hc : s.state.counts with
  | false => simp [tick_of_not_counts hc]
  | true =>
    have hzero : (countDown s.st == 0) = true ↔ s.st.toNat - 1 = 0 := by
      rw [beq_iff_eq, ← countDown_toNat]
      exact BitVec.toNat_inj.symm
    simp only [tick_of_counts hc, Bool.and_eq_true, decide_eq_true_eq, hzero, true_and]
    omega

/-- A change of the two timers alone. -/
theorem frame_timers (s : State) (d e : Byte) : Frame [] [.delayTimer, .soundTimer] s { s with dt := d, st := e } :=
  ⟨fun _ _ => rfl, fun _ _ => rfl, fun _ => rfl, fun _ => ⟨rfl, fun _ => rfl⟩, fun h => absurd (by simp) h,
    fun h => absurd (by simp) h, fun _ _ => rfl, fun _ => rfl, fun _ => rfl, rfl, rfl⟩

/-- The STATEs in which a pause suspends are those in which the timers count (R211, R217). -/
theorem pause_of_counts {s : State} (h : s.state.counts = true) :
    pause s = { s with saved := s.state, state := .paused } := by
  cases hs : s.state with
  | running | blocked _ | drawPending | clearPending => simp only [pause, hs]
  | paused | halted _ => rw [hs] at h; cases h

theorem pause_of_not_counts {s : State} (h : s.state.counts = false) : pause s = s := by
  obtain hs | ⟨k, hs⟩ := not_counts_iff.1 h <;> simp only [pause, hs]

theorem resume_of_paused {s : State} (h : s.state = .paused) : resume s = { s with state := s.saved } := by
  simp only [resume, h]

theorem resume_of_ne_paused {s : State} (h : s.state ≠ .paused) : resume s = s := by
  cases hs : s.state with
  | paused => exact absurd hs h
  | running | blocked _ | drawPending | clearPending | halted _ => simp only [resume, hs]

theorem length_displaySnapshot (s : State) : (displaySnapshot s).length = 2048 := by
  rw [displaySnapshot, List.length_map, List.length_range]

theorem getElem?_displaySnapshot (s : State) {k : Nat} (h : k < 2048) : (displaySnapshot s)[k]? = some (s.cell k) := by
  rw [displaySnapshot, List.getElem?_map, List.getElem?_range h, Option.map_some]

/-- A step transaction is the step, and its reply a STATE (R109). -/
theorem transact_step_inv {s t : State} {r : Reply} (h : transact .step s = .next (t, r)) :
    step s = .next t ∧ r = .state t.state := by
  obtain ⟨u, hu⟩ := step_total s
  cases (transact_step hu).symm.trans h
  exact ⟨hu, rfl⟩

/-! ## Timers, pause, ports -/

/-- Settles O48: a tick on either side of `ExecState.counts`; the reply of every other operation is no beep. -/
theorem tickCountsDown : Obligations.TickCountsDown := by
  intro s
  refine ⟨fun hs => tick_of_not_counts (not_counts_iff.2 hs), fun hp hh => ?counts, rfl, fun op t h => ?onlyTick⟩
  case counts =>
    have hc := counts_iff.2 ⟨hp, hh⟩
    have hbeep : (tick s).2 = true ↔ s.st.toNat = 1 := (tick_beep_iff s).trans (and_iff_right hc)
    refine ⟨?_, ?_, hbeep, ?_⟩ <;> rw [tick_of_counts hc]
    · exact countDown_toNat s.dt
    · exact countDown_toNat s.st
    · exact ⟨rfl, frame_timers s _ _⟩
  case onlyTick =>
    cases op with
    | tick =>
      have hbeep : (tick s).2 = true := Reply.beep.inj (Prod.mk.inj (Host.Outcome.next.inj h)).2
      exact ⟨rfl, ((tick_beep_iff s).1 hbeep).2⟩
    | step => cases (transact_step_inv h).2
    | reset | setKeys | pause | resume | readDisplay | readStatus => cases h

/-- Settles O50: pause on either side of `ExecState.counts`, resume on either side of Paused. -/
theorem pauseAndResume : Obligations.PauseAndResume := by
  intro s
  refine ⟨fun hs => pause_of_not_counts (not_counts_iff.2 hs), fun hp hh => ?_, resume_of_paused, resume_of_ne_paused⟩
  have hpause := pause_of_counts (counts_iff.2 ⟨hp, hh⟩)
  refine ⟨hpause, ?_⟩
  rw [hpause, resume_of_paused rfl]

/-- Settles O52: the snapshot's length and its cells. -/
theorem readsChangeNothing : Obligations.ReadsChangeNothing := fun s =>
  ⟨rfl, displaySnapshot s, rfl, length_displaySnapshot s, fun _ => getElem?_displaySnapshot s⟩

/-- Settles O54: Halted counts no timer and is not Paused, so of the operations beside reset only `set_keys` acts. -/
theorem onlyResetLeavesHalted : Obligations.OnlyResetLeavesHalted := by
  intro op s t k r hs h
  have hc : s.state.counts = false := not_counts_iff.2 (.inr ⟨k, hs⟩)
  have hp : s.state ≠ .paused := by rw [hs]; exact ExecState.noConfusion
  cases op with
  | reset font rom => exact .inl ⟨font, rom, rfl⟩
  | setKeys keys => cases h; exact .inr (.inl ⟨keys, rfl, rfl⟩)
  | step => cases (step_of_halted hs).symm.trans (transact_step_inv h).1; exact .inr (.inr rfl)
  | tick => cases h; rw [tick_of_not_counts hc]; exact .inr (.inr rfl)
  | pause => cases h; exact .inr (.inr (pause_of_not_counts hc))
  | resume => cases h; exact .inr (.inr (resume_of_ne_paused hp))
  | readDisplay | readStatus => cases h; exact .inr (.inr rfl)

/-! ## The key latch -/

/-- Every instruction has an answer with the same latch (spec/10_state.md R31). -/
theorem exec_next_keys (i : Instr) (s : State) : ∃ t, exec i s = .next t ∧ t.keys = s.keys := by
  cases hc : faultCause i s with
  | some k => exact ⟨_, exec_of_faultCause hc, rfl⟩
  | none =>
    cases i
    case ret =>
      have h0 : s.sp.val ≠ 0 := check_passes hc
      have hsp := s.sp.isLt
      exact ⟨_, execRet_of_entry (j := ⟨s.sp.val - 1, by omega⟩) (by simp only; omega), rfl⟩
    case call nnn =>
      have h16 : s.sp.val ≠ 16 := check_passes hc
      have hsp := s.sp.isLt
      exact ⟨_, execCall_of_room (j := ⟨s.sp.val, by omega⟩) rfl nnn, rfl⟩
    case skp => exact ⟨_, execSkp_of_validKey (check_passes hc), rfl⟩
    case sknp => exact ⟨_, execSknp_of_validKey (check_passes hc), rfl⟩
    case drw x y n =>
      have h := check_passes hc
      exact ⟨_, execDrw_of_inBounds (by omega) x y, rfl⟩
    case ldVxK x =>
      obtain ⟨hn, -⟩ | ⟨k, hk, -⟩ := lowestKey_cases s
      · exact ⟨_, execLdVxK_of_noKey hn x, rfl⟩
      · exact ⟨_, execLdVxK_of_lowestKey hk x, rfl⟩
    case ldB => exact ⟨_, storeAtIndex_of_inBounds (Nat.not_le.1 (check_passes hc)), rfl⟩
    case storeRegs x =>
      have h := check_passes hc
      exact ⟨_, storeAtIndex_of_inBounds (by rw [length_blockRegs]; omega), rfl⟩
    case loadRegs =>
      refine ⟨_, execLoadRegs_of_inBounds (Nat.not_le.1 (check_passes hc)), ?_⟩
      rw [State.setRegs_eq]
      rfl
    -- every other instruction checks nothing and updates other fields
    all_goals exact ⟨_, rfl, rfl⟩

theorem exec_keys {i : Instr} {s t : State} (h : exec i s = .next t) : t.keys = s.keys := by
  obtain ⟨u, hu, hk⟩ := exec_next_keys i s
  cases hu.symm.trans h
  exact hk

theorem completeWait_keys (x : Reg) (s : State) : (completeWait x s).keys = s.keys := by
  obtain ⟨hn, -⟩ | ⟨k, hk, -⟩ := lowestKey_cases s
  · rw [completeWait_of_noKey hn]
  · rw [completeWait_of_lowestKey hk]; rfl

theorem step_keys {s t : State} (h : step s = .next t) : t.keys = s.keys := by
  obtain ⟨rfl, -⟩ | ⟨x, -, rfl⟩ | ⟨-, -, rfl⟩ | ⟨-, -, rfl, -⟩ | ⟨-, -, i, -, hx⟩ := step_cases h
  · rfl
  · exact completeWait_keys x s
  · rfl
  · rfl
  · exact (exec_keys hx :)

theorem tick_keys (s : State) : (tick s).1.keys = s.keys := by
  cases hc : s.state.counts with
  | true => rw [tick_of_counts hc]
  | false => rw [tick_of_not_counts hc]

theorem pause_keys (s : State) : (pause s).keys = s.keys := by
  cases hc : s.state.counts with
  | true => rw [pause_of_counts hc]
  | false => rw [pause_of_not_counts hc]

theorem resume_keys (s : State) : (resume s).keys = s.keys := by
  by_cases hp : s.state = .paused
  · rw [resume_of_paused hp]
  · rw [resume_of_ne_paused hp]

/-- Settles O49: each operation beside `set_keys` and `reset` keeps the latch. -/
theorem onlySetKeysWritesTheLatch : Obligations.OnlySetKeysWritesTheLatch := by
  refine ⟨fun _ _ => rfl, fun op s t r h hne => ?_⟩
  cases op with
  | setKeys k => exact .inl ⟨k, rfl⟩
  | reset font rom => exact .inr ⟨font, rom, rfl⟩
  | step => exact absurd (step_keys (transact_step_inv h).1) hne
  | tick => cases h; exact absurd (tick_keys s) hne
  | pause => cases h; exact absurd (pause_keys s) hne
  | resume => cases h; exact absurd (resume_keys s) hne
  | readDisplay | readStatus => cases h; exact absurd rfl hne

end Sys2Proof.Machine

/-!
PROOFS. The encoding statements (spec/30_encoding.md R70 to R84). `decodeWord_encode` says that decoding undoes encoding;
here is the converse, one lemma per format of R72, then the words that no selector names and the rows of the opcode map.
-/

namespace Sys2Proof

/-- Settles O1: the two bytes make the word again, and `decodeWord_encode` decodes it. -/
theorem decodeOfEncodeIsTheInstruction : Obligations.DecodeOfEncodeIsTheInstruction := by
  intro i rest hi
  show decode (_ :: _ :: rest) = _
  rw [decode, wordOfBytes_bytesOfWord, decodeWord_encode hi]

/-! ## A word is made of its format's fields (R72) -/

theorem encodeA_fields {w : Word} {fam : Nat} (h : field w 12 4 = fam) : encodeA fam (fieldNNN w) = w := by
  have hw := w.isLt
  rw [field_family] at h
  apply BitVec.eq_of_toNat_eq
  rw [encodeA_toNat (by omega), fieldNNN_toNat]
  omega

theorem encodeXI_fields {w : Word} {fam : Nat} (h : field w 12 4 = fam) : encodeXI fam (fieldX w) (fieldNN w) = w := by
  have hw := w.isLt
  rw [field_family] at h
  apply BitVec.eq_of_toNat_eq
  rw [encodeXI_toNat (by omega), fieldX_val, fieldNN_toNat]
  omega

theorem encodeXYN_fields {w : Word} {fam n : Nat} (h : field w 12 4 = fam) (hn : field w 0 4 = n) :
    encodeXYN fam (fieldX w) (fieldY w) n = w := by
  have hw := w.isLt
  rw [field_family] at h
  rw [field_low4] at hn
  apply BitVec.eq_of_toNat_eq
  rw [encodeXYN_toNat (by omega) _ _ (by omega), fieldX_val, fieldY_val]
  omega

theorem encodeXS_fields {w : Word} {fam sel : Nat} (h : field w 12 4 = fam) (hs : field w 0 8 = sel) :
    encodeXS fam (fieldX w) sel = w := by
  have hw := w.isLt
  rw [field_family] at h
  rw [field_low8] at hs
  apply BitVec.eq_of_toNat_eq
  rw [encodeXS_toNat (by omega) _ (by omega), fieldX_val]
  omega

/-- A word of family 0 is its low 12 bits. -/
theorem toNat_of_family0 {w : Word} (h : field w 12 4 = 0) : w.toNat = field w 0 12 := by
  rw [field_family] at h
  rw [field_low12]
  omega

/-! ## A legal word is the encoding of its instruction -/

/-- `i` is well-formed and `w` is its word. -/
def Encodes (i : Instr) (w : Word) : Prop := WellFormed i = true ∧ encode i = w

theorem encodes_of_decodeFamily0 {w : Word} {i : Instr} (hf : field w 12 4 = 0) (h : decodeFamily0 w = .ok i) :
    Encodes i w := by
  unfold decodeFamily0 at h
  split at h
  all_goals cases h
  all_goals exact ⟨rfl, BitVec.eq_of_toNat_eq ((toNat_of_family0 hf).trans ‹_›).symm⟩

theorem encodes_of_decodeFamily8 {w : Word} {i : Instr} (hf : field w 12 4 = 8) (h : decodeFamily8 w = .ok i) :
    Encodes i w := by
  unfold decodeFamily8 at h
  split at h
  all_goals cases h
  all_goals exact ⟨rfl, encodeXYN_fields hf ‹_›⟩

theorem encodes_of_decodeFamilyE {w : Word} {i : Instr} (hf : field w 12 4 = 0xE) (h : decodeFamilyE w = .ok i) :
    Encodes i w := by
  unfold decodeFamilyE at h
  split at h
  all_goals cases h
  all_goals exact ⟨rfl, encodeXS_fields hf ‹_›⟩

theorem encodes_of_decodeFamilyF {w : Word} {i : Instr} (hf : field w 12 4 = 0xF) (h : decodeFamilyF w = .ok i) :
    Encodes i w := by
  unfold decodeFamilyF at h
  split at h
  all_goals cases h
  all_goals exact ⟨rfl, encodeXS_fields hf ‹_›⟩

/-- The selector nibble of families 5 and 9 (R76). -/
theorem encodes_of_zeroNibble {w : Word} {i j : Instr} {r : Reject}
    (h : (if field w 0 4 = 0 then .ok j else .error r : Except Reject Instr) = .ok i)
    (hj : field w 0 4 = 0 → Encodes j w) : Encodes i w := by
  split at h
  · next h0 => cases h; exact hj h0
  · cases h

/-- The branches are those of R74's tree, from family 0 to family F. -/
theorem encodes_of_decodeWord {w : Word} {i : Instr} (h : decodeWord w = .ok i) : Encodes i w := by
  unfold decodeWord at h
  split at h
  next hf => exact encodes_of_decodeFamily0 hf h
  next hf => cases h; exact ⟨rfl, encodeA_fields hf⟩
  next hf => cases h; exact ⟨rfl, encodeA_fields hf⟩
  next hf => cases h; exact ⟨rfl, encodeXI_fields hf⟩
  next hf => cases h; exact ⟨rfl, encodeXI_fields hf⟩
  next hf => exact encodes_of_zeroNibble h fun h0 => ⟨rfl, encodeXYN_fields hf h0⟩
  next hf => cases h; exact ⟨rfl, encodeXI_fields hf⟩
  next hf => cases h; exact ⟨rfl, encodeXI_fields hf⟩
  next hf => exact encodes_of_decodeFamily8 hf h
  next hf => exact encodes_of_zeroNibble h fun h0 => ⟨rfl, encodeXYN_fields hf h0⟩
  next hf => cases h; exact ⟨rfl, encodeA_fields hf⟩
  next hf => cases h; exact ⟨rfl, encodeA_fields hf⟩
  next hf => cases h; exact ⟨rfl, encodeXI_fields hf⟩
  next hf => cases h; exact ⟨decide_eq_true (Nat.mod_lt _ (by decide)), encodeXYN_fields hf rfl⟩
  next hf => exact encodes_of_decodeFamilyE hf h
  next hf => exact encodes_of_decodeFamilyF hf h
  next => cases h

/-- Settles O2: every branch of the decoder keeps all the fields of its format. -/
theorem decodedWordIsItsEncoding : Obligations.DecodedWordIsItsEncoding := fun _ _ => encodes_of_decodeWord

/-! ## The selectors that name no instruction (R75 to R79) -/

theorem decodeFamily0_rejects_iff {w : Word} :
    decodeFamily0 w = .error (.unknownOpcode w) ↔ field w 0 12 ≠ 0x0E0 ∧ field w 0 12 ≠ 0x0EE := by
  unfold decodeFamily0
  split <;> simp_all

theorem decodeFamily8_rejects_iff {w : Word} :
    decodeFamily8 w = .error (.unknownOpcode w) ↔ 8 ≤ field w 0 4 ∧ field w 0 4 ≠ 0xE := by
  unfold decodeFamily8
  split <;> simp_all
  omega

theorem decodeFamilyE_rejects_iff {w : Word} :
    decodeFamilyE w = .error (.unknownOpcode w) ↔ field w 0 8 ≠ 0x9E ∧ field w 0 8 ≠ 0xA1 := by
  unfold decodeFamilyE
  split <;> simp_all

theorem decodeFamilyF_rejects_iff {w : Word} :
    decodeFamilyF w = .error (.unknownOpcode w) ↔
      field w 0 8 ∉ [0x07, 0x0A, 0x15, 0x18, 0x1E, 0x29, 0x33, 0x55, 0x65] := by
  unfold decodeFamilyF
  split <;> simp_all

/-- Settles O4, family by family: only 0, 5, 8, 9, E and F have selectors, and each rejects those it does not name. -/
theorem illegalWordsAreTheUnknownSelectors : Obligations.IllegalWordsAreTheUnknownSelectors := by
  intro w
  have hlt : field w 12 4 < 16 := Nat.mod_lt _ (by decide)
  rw [← field_family, ← field_low4, ← field_low8]
  interval_cases hf : field w 12 4
  -- a family with selectors rejects those it does not name; every word of another family is an instruction
  all_goals
    simp [decodeWord, hf, toNat_of_family0, decodeFamily0_rejects_iff, decodeFamily8_rejects_iff,
      decodeFamilyE_rejects_iff, decodeFamilyF_rejects_iff]

/-! ## The opcode map (R84) -/

section
open Laws.EncodesItsRow

/-- Every instruction's own word lies in its row. -/
theorem encode_row : ∀ i, Laws.EncodesItsRow.Statement i
  | .cls => cls | .ret => ret | .jp _ => jp _ | .call _ => call _ | .seImm _ _ => seImm _ _ | .sneImm _ _ => sneImm _ _
  | .seReg _ _ => seReg _ _ | .sneReg _ _ => sneReg _ _ | .ldImm _ _ => ldImm _ _ | .addImm _ _ => addImm _ _
  | .ldReg _ _ => ldReg _ _ | .orReg _ _ => orReg _ _ | .andReg _ _ => andReg _ _ | .xorReg _ _ => xorReg _ _
  | .addReg _ _ => addReg _ _ | .subReg _ _ => subReg _ _ | .shr _ _ => shr _ _ | .subnReg _ _ => subnReg _ _
  | .shl _ _ => shl _ _ | .ldI _ => ldI _ | .jpV0 _ => jpV0 _ | .rnd _ _ => rnd _ _ | .drw _ _ _ => drw _ _ _
  | .skp _ => skp _ | .sknp _ => sknp _ | .ldVxDt _ => ldVxDt _ | .ldVxK _ => ldVxK _ | .ldDtVx _ => ldDtVx _
  | .ldStVx _ => ldStVx _ | .addI _ => addI _ | .ldF _ => ldF _ | .ldB _ => ldB _ | .storeRegs _ => storeRegs _
  | .loadRegs _ => loadRegs _

end

/-- The map has a row for every instruction. -/
theorem rowOf_mem (i : Instr) : rowOf i ∈ opcodeRows := by
  cases i <;> simp [opcodeRows, rowOf]

theorem exists_rowOf_of_mem {r : OpRow} (h : r ∈ opcodeRows) : ∃ i, rowOf i = r := by
  simp only [opcodeRows, ← List.map_append, List.mem_map] at h
  exact h.imp fun _ hi => hi.2

/-! A masked word shows the selectors that its mask keeps. -/

theorem family_of_maskF000 {w v : Word} (h : w &&& 0xF000 = v) : field w 12 4 = v.toNat / 4096 := by
  rw [field_family, ← h, and_F000]
  omega

theorem fields_of_maskF00F {w v : Word} (h : w &&& 0xF00F = v) :
    field w 12 4 = v.toNat / 4096 ∧ field w 0 4 = v.toNat % 16 := by
  rw [field_family, field_low4, ← h, and_F00F]
  omega

theorem fields_of_maskF0FF {w v : Word} (h : w &&& 0xF0FF = v) :
    field w 12 4 = v.toNat / 4096 ∧ field w 0 8 = v.toNat % 256 := by
  rw [field_family, field_low8, ← h, and_F0FF]
  omega

/-- The selectors of a row lead the decoder to an instruction of the row. -/
theorem decodes_of_row {w : Word} (i : Instr) (h : w &&& (rowOf i).mask = (rowOf i).value) :
    ∃ j, decodeWord w = .ok j ∧ rowOf j = rowOf i := by
  cases i
  case cls | ret =>
    obtain rfl := (and_FFFF w).symm.trans h
    exact ⟨_, rfl, rfl⟩
  case jp | call | seImm | sneImm | ldImm | addImm | ldI | jpV0 | rnd | drw =>
    simp [decodeWord, family_of_maskF000 h, rowOf]
  case seReg | sneReg | ldReg | orReg | andReg | xorReg | addReg | subReg | shr | subnReg | shl =>
    obtain ⟨hf, hs⟩ := fields_of_maskF00F h
    simp [decodeWord, decodeFamily8, hf, hs, rowOf]
  case skp | sknp | ldVxDt | ldVxK | ldDtVx | ldStVx | addI | ldF | ldB | storeRegs | loadRegs =>
    obtain ⟨hf, hs⟩ := fields_of_maskF0FF h
    simp [decodeWord, decodeFamilyE, decodeFamilyF, hf, hs, rowOf]

/-- Settles O3: `decodes_of_row` is the one direction; for the other, a decoded word is its instruction's own, which lies in
the instruction's row. -/
theorem wordDecodesByItsOpcodeRow : Obligations.WordDecodesByItsOpcodeRow := by
  refine ⟨rfl, fun w r hr => ⟨fun h => ?_, ?_⟩, fun w i _ => rowOf_mem i⟩
  · obtain ⟨i, rfl⟩ := exists_rowOf_of_mem hr
    exact decodes_of_row i h
  · rintro ⟨i, hd, rfl⟩
    obtain ⟨-, rfl⟩ := encodes_of_decodeWord hd
    exact encode_row i

/-- Settles O5: the decoder evaluated on each word. -/
theorem sampleWordsDecode : Obligations.SampleWordsDecode :=
  ⟨rfl, rfl, rfl, rfl, rfl, rfl, rfl, rfl, rfl, rfl⟩

end Sys2Proof

/-!
PROOFS. What an instruction answers, as a function: it stops with STATE changed alone, or it goes on to its `result`. With
it two runs can be compared field by field, and a relation that decisions and results keep is kept by every step; so
nothing reads ST and SAVED (R29, R38), nor a stack entry at SP or above (R26).
-/

namespace Sys2Proof.Machine

/-! ## The answer of an instruction -/

/-- The STATE in which `i` ends when it changes STATE alone: its own check fails (R111), or `Fx0A` finds no key (R193). -/
def stopState (i : Instr) (s : State) : Option ExecState :=
  match i with
  | .ldVxK x => if (lowestKey s).isNone then some (.blocked x) else none
  | i => (faultCause i s).map .halted

/-- The registers after `Fx65`: V0 to Vx hold the bytes from `MEM[I]` (R165). -/
def loadedRegs (x : Reg) (s : State) : Vector Byte 16 :=
  Vector.ofFn fun r : Reg => if r ≤ x then s.byte (s.i.toNat + r.val) else s.reg r

/-- The state after `i` when nothing stops it. An instruction that never stops has its one answer. -/
def result (i : Instr) (s : State) : State :=
  match i with
  | .ret => State.jump (s.entry ⟨s.sp.val - 1, by omega⟩ + 2) { s with sp := ⟨s.sp.val - 1, by omega⟩ }
  | .call nnn =>
    State.jump (zext16 nnn)
      { s with stack := s.stack.setIfInBounds s.sp.val s.pc, sp := ⟨min (s.sp.val + 1) 16, by omega⟩ }
  | .skp x => s.skipIf (s.key (s.reg x).toNat)
  | .sknp x => s.skipIf (!s.key (s.reg x).toNat)
  | .drw x y n =>
    let drawn := drawCells s.disp (drwCells x y n s)
    State.advance { s.setReg vf (flagByte drawn.2) with disp := drawn.1, state := .drawPending }
  | .ldVxK x => takeKey x ((lowestKey s).getD 0) s
  | .ldB x => State.advance { s with mem := Memory.writeBytes s.mem s.i.toNat (bcdDigits (s.reg x)) }
  | .storeRegs x => State.advance { s with mem := Memory.writeBytes s.mem s.i.toNat (blockRegs s x) }
  | .loadRegs x => State.advance { s with v := loadedRegs x s }
  | i => match exec i s with
    | .next t => t
    | .fault _ | .refused _ => s

/-- What `exec` answers, by `exec_eq_answer`. -/
def answer (i : Instr) (s : State) : State :=
  match stopState i s with
  | some e => { s with state := e }
  | none => result i s

theorem reg_loadedRegs (x r : Reg) (s : State) :
    State.reg { s with v := loadedRegs x s } r = if r ≤ x then s.byte (s.i.toNat + r.val) else s.reg r :=
  Vector.getElem_ofFn r.isLt

theorem setRegs_readBytes (x : Reg) (s : State) :
    s.setRegs 0 (Memory.readBytes s.mem s.i.toNat (x.val + 1)) = { s with v := loadedRegs x s } := by
  have hv : (s.setRegs 0 (Memory.readBytes s.mem s.i.toNat (x.val + 1))).v = loadedRegs x s :=
    State.v_ext (t := { s with v := loadedRegs x s }) fun r => by
      rw [State.reg_setRegs_readBytes, reg_loadedRegs, State.byte]
  rw [State.setRegs_eq, hv]

/-- The two reasons to stop. -/
theorem stopState_cases {i : Instr} {s : State} {e : ExecState} (h : stopState i s = some e) :
    (∃ k, faultCause i s = some k ∧ e = .halted k) ∨ ∃ x, i = .ldVxK x ∧ e = .blocked x ∧ ¬ AnyKey s := by
  cases i
  case ldVxK x =>
    obtain ⟨hn, hk⟩ | ⟨k, -, hk⟩ := lowestKey_cases s
    · exact .inr ⟨x, rfl, by simpa [stopState, hk, eq_comm] using h, hn⟩
    · simp [stopState, hk] at h
  all_goals
    simp only [stopState, Option.map_eq_some_iff] at h
    obtain ⟨k, hk, he⟩ := h
    exact .inl ⟨k, hk, he.symm⟩

theorem faultCause_of_stopState_none {i : Instr} {s : State} (h : stopState i s = none) : faultCause i s = none := by
  cases i
  case ldVxK => rfl
  all_goals simpa only [stopState, Option.map_eq_none_iff] using h

theorem exec_of_stopState {i : Instr} {s : State} {e : ExecState} (h : stopState i s = some e) :
    exec i s = .next { s with state := e } := by
  obtain ⟨k, hk, rfl⟩ | ⟨x, rfl, rfl, hn⟩ := stopState_cases h
  · exact exec_of_faultCause hk
  · exact execLdVxK_of_noKey hn x

theorem exec_of_stopState_none {i : Instr} {s : State} (h : stopState i s = none) : exec i s = .next (result i s) := by
  have hc := faultCause_of_stopState_none h
  cases i
  case ret => exact dif_neg (check_passes hc)
  case call nnn =>
    have h16 := check_passes hc
    have hsp : s.sp.val < 16 := by omega
    have hstack : s.stack.setIfInBounds s.sp.val s.pc = s.stack.set s.sp.val s.pc :=
      Vector.ext fun j hj => by rw [Vector.getElem_setIfInBounds, Vector.getElem_set]
    have hmin : min (s.sp.val + 1) 16 = s.sp.val + 1 := Nat.min_eq_left (by omega)
    rw [exec, execCall_of_room (j := ⟨s.sp.val, hsp⟩) rfl]
    simp only [result, hstack, hmin]
  case skp => exact execSkp_of_validKey (check_passes hc)
  case sknp => exact execSknp_of_validKey (check_passes hc)
  case drw x y n =>
    have hb := check_passes hc
    exact execDrw_of_inBounds (by omega) x y
  case ldVxK x =>
    obtain ⟨hn, hk⟩ | ⟨k, hk, hk'⟩ := lowestKey_cases s
    · simp [stopState, hk] at h
    · rw [result, hk']
      exact execLdVxK_of_lowestKey hk x
  case ldB => exact storeAtIndex_of_inBounds (Nat.not_le.1 (check_passes hc))
  case storeRegs x =>
    have hb := check_passes hc
    exact storeAtIndex_of_inBounds (by rw [length_blockRegs]; omega)
  case loadRegs x =>
    rw [result, ← setRegs_readBytes]
    exact execLoadRegs_of_inBounds (Nat.not_le.1 (check_passes hc))
  -- every other instruction is its own result
  all_goals rfl

theorem exec_eq_answer (i : Instr) (s : State) : exec i s = .next (answer i s) := by
  unfold answer
  cases h : stopState i s with
  | some e => exact exec_of_stopState h
  | none => exact exec_of_stopState_none h

/-! ## Relations that every step keeps -/

/-- A step that finds Blocked(x) is the waiting `Fx0A` once more (R110). -/
theorem step_of_blocked_eq_exec {s : State} {x : Reg} (hs : s.state = .blocked x) : step s = exec (.ldVxK x) s := by
  rw [step_of_blocked hs]
  obtain ⟨hn, -⟩ | ⟨k, hk, -⟩ := lowestKey_cases s
  · rw [completeWait_of_noKey hn, exec, execLdVxK_of_noKey hn, ← hs]
  · rw [completeWait_of_lowestKey hk, exec, execLdVxK_of_lowestKey hk]

/-- Related states decide alike what a step does, and what it then does keeps them related. -/
structure Simulation (R : State → State → Prop) : Prop where
  state : ∀ {s s'}, R s s' → s'.state = s.state
  pc : ∀ {s s'}, R s s' → s'.pc = s.pc
  memory : ∀ {s s'}, R s s' → s'.mem = s.mem
  stop : ∀ {s s'}, R s s' → ∀ i, stopState i s' = stopState i s
  setState : ∀ {s s'}, R s s' → ∀ e, R { s with state := e } { s' with state := e }
  result : ∀ {s s'}, R s s' → ∀ {i}, stopState i s = none → R (result i s) (result i s')

section
variable {R : State → State → Prop} {s s' t : State}

theorem Simulation.exec (hR : Simulation R) (h : R s s') {i : Instr} (ht : exec i s = .next t) :
    ∃ t', Machine.exec i s' = .next t' ∧ R t t' := by
  cases (exec_eq_answer i s).symm.trans ht
  refine ⟨_, exec_eq_answer i s', ?_⟩
  unfold answer
  rw [hR.stop h]
  cases hs : stopState i s with
  | some e => exact hR.setState h e
  | none => exact hR.result h hs

theorem Simulation.fetchWord (hR : Simulation R) (h : R s s') : fetchWord s' = fetchWord s := by
  rw [Machine.fetchWord, Machine.fetchWord, State.byte, State.byte, State.byte, State.byte, hR.pc h, hR.memory h]

theorem Simulation.step (hR : Simulation R) (h : R s s') (ht : step s = .next t) :
    ∃ t', Machine.step s' = .next t' ∧ R t t' := by
  have hstate := hR.state h
  cases hs : s.state with
  | paused =>
    cases (step_of_paused hs).symm.trans ht
    exact ⟨s', step_of_paused (hstate.trans hs), h⟩
  | halted k =>
    cases (step_of_halted hs).symm.trans ht
    exact ⟨s', step_of_halted (hstate.trans hs), h⟩
  | blocked x =>
    rw [step_of_blocked_eq_exec hs] at ht
    rw [step_of_blocked_eq_exec (hstate.trans hs)]
    exact hR.exec h ht
  | running | drawPending | clearPending =>
    have hf : s.state.fetches = true := by rw [hs]; rfl
    have hf' : s'.state.fetches = true := by rw [hstate]; exact hf
    have hpc : s'.pc.toNat = s.pc.toNat := congrArg BitVec.toNat (hR.pc h)
    have hw := congrArg decodeWord (hR.fetchWord h)
    by_cases hp : s.pc.toNat + 1 < 4096
    · cases hd : decodeWord (Machine.fetchWord s) with
      | error r =>
        cases (step_of_illegal hf hp hd).symm.trans ht
        exact ⟨_, step_of_illegal hf' (by omega) (hw.trans hd), hR.setState h _⟩
      | ok i =>
        rw [step_of_legal hf hp hd] at ht
        rw [step_of_legal hf' (by omega) (hw.trans hd)]
        exact hR.exec (hR.setState h .running) ht
    · cases (step_of_pc hf (by omega)).symm.trans ht
      exact ⟨_, step_of_pc hf' (by omega), hR.setState h _⟩

end

/-! ## ST and SAVED (R29, R38) -/

/-- The states differ in ST and SAVED at most. -/
def AlikeButStAndSaved (s s' : State) : Prop := ∃ b e, s' = { s with st := b, saved := e }

theorem simulation_stAndSaved : Simulation AlikeButStAndSaved where
  state := by rintro _ _ ⟨b, e, rfl⟩; rfl
  pc := by rintro _ _ ⟨b, e, rfl⟩; rfl
  memory := by rintro _ _ ⟨b, e, rfl⟩; rfl
  stop := by rintro s _ ⟨b, e, rfl⟩ i; cases i <;> rfl
  setState := by rintro _ _ ⟨b, e, rfl⟩ _; exact ⟨b, e, rfl⟩
  result := by rintro s _ ⟨b, e, rfl⟩ i -; cases i <;> exact ⟨_, _, rfl⟩

/-- Settles O43: no instruction's decisions or results read ST or SAVED. -/
theorem soundTimerAndSavedAreUnobservable : Obligations.SoundTimerAndSavedAreUnobservable := by
  intro s t b e ht
  obtain ⟨_, ht', b', e', rfl⟩ := simulation_stAndSaved.step ⟨b, e, rfl⟩ ht
  exact ⟨_, ht', rfl⟩

/-! ## Stale stack entries (R26) -/

/-- The states differ in stack entries at SP or above at most. -/
def AlikeBelowSp (s s' : State) : Prop :=
  ∃ stack, s' = { s with stack := stack } ∧ ∀ k : Fin 16, k.val < s.sp.val → s'.entry k = s.entry k

/-- A call pushes at SP; with a full stack there is no such entry. -/
theorem entry_result_call {s : State} (nnn : Addr12) (k : Fin 16) :
    (result (.call nnn) s).entry k = if k.val = s.sp.val then s.pc else s.entry k := by
  simp only [result, State.entry, State.jump_stack, Vector.getElem_setIfInBounds, eq_comm]

theorem alikeBelowSp_result {s s' : State} (h : AlikeBelowSp s s') {i : Instr} (hs : stopState i s = none) :
    AlikeBelowSp (result i s) (result i s') := by
  obtain ⟨stack, rfl, h⟩ := h
  cases i
  case ret =>
    have h0 : s.sp.val ≠ 0 := check_passes (faultCause_of_stopState_none hs)
    have hk := h ⟨s.sp.val - 1, by omega⟩ (by simp only; omega)
    refine ⟨stack, ?_, ?_⟩
    · simp only [result]
      rw [hk]
      rfl
    · intro k hk
      exact h k (by simp only [result, State.jump_sp] at hk; omega)
  case call nnn =>
    refine ⟨_, rfl, fun k hk => ?_⟩
    simp only [result, State.jump_sp] at hk
    rw [entry_result_call, entry_result_call]
    by_cases hks : k.val = s.sp.val
    · rw [if_pos hks, if_pos hks]
    · rw [if_neg hks, if_neg hks]
      exact h k (by omega)
  -- every other instruction leaves the stack and SP
  all_goals exact ⟨stack, rfl, h⟩

theorem simulation_belowSp : Simulation AlikeBelowSp where
  state := by rintro _ _ ⟨stack, rfl, -⟩; rfl
  pc := by rintro _ _ ⟨stack, rfl, -⟩; rfl
  memory := by rintro _ _ ⟨stack, rfl, -⟩; rfl
  stop := by rintro s _ ⟨stack, rfl, -⟩ i; cases i <;> rfl
  setState := by rintro _ _ ⟨stack, rfl, h⟩ _; exact ⟨stack, rfl, h⟩
  result := alikeBelowSp_result

/-- Settles O44: only `ret` reads the stack, at SP - 1, and only `call` writes it, at SP. -/
theorem staleStackEntriesAreNotRead : Obligations.StaleStackEntriesAreNotRead := by
  intro s t j w hj ht
  have hstale : AlikeBelowSp s { s with stack := s.stack.set j.val w } := by
    refine ⟨_, rfl, fun k hk => ?_⟩
    have hne : k ≠ j := fun h => absurd hk (h ▸ Nat.not_lt.2 hj)
    rw [State.entry_of_stack_set rfl, if_neg hne]
  obtain ⟨_, ht', stack, rfl, h⟩ := simulation_belowSp.step hstale ht
  exact ⟨_, ht', rfl, h⟩

end Sys2Proof.Machine

/-!
PROOFS. Registers by the table of R23: an answer keeps those outside the column `writes`, and two states that are alike on
the column `reads` have answers that are alike but for registers they keep. Memory by the table of R57.
-/

namespace Sys2Proof.Machine

/-! ## The registers an instruction writes (R23, column `writes`) -/

theorem reg_result_drw (x y : Reg) (n : Nat) (s : State) :
    (result (.drw x y n) s).reg vf = flagByte (drawCells s.disp (drwCells x y n s)).2 :=
  State.reg_setReg_self s vf _

theorem reg_result_loadRegs (x r : Reg) (s : State) :
    (result (.loadRegs x) s).reg r = if r ≤ x then s.byte (s.i.toNat + r.val) else s.reg r :=
  reg_loadedRegs x r s

theorem reg_result {i : Instr} {s : State} {r : Reg} (hr : r ∉ regsWritten i) : (result i s).reg r = s.reg r := by
  cases i
  case ldImm x _ | addImm x _ | ldReg x _ | orReg x _ | andReg x _ | xorReg x _ | ldVxDt x | rnd x _ =>
    exact (frame_setReg s x _).registers r hr
  case ldVxK => exact (frame_takeKey s _ _).registers r hr
  case addReg x _ | subReg x _ | shr x _ | subnReg x _ | shl x _ =>
    exact (frame_setFlagThenReg s x _ _).registers r hr
  case drw => exact (frame_draw s _ _).registers r hr
  case loadRegs x => rw [reg_result_loadRegs, if_neg fun h => hr (mem_regsUpTo.2 h)]
  -- every other instruction writes no register
  all_goals rfl

theorem reg_answer {i : Instr} {s : State} {r : Reg} (hr : r ∉ regsWritten i) : (answer i s).reg r = s.reg r := by
  unfold answer
  cases stopState i s with
  | some e => rfl
  | none => exact reg_result hr

/-! ## The registers an instruction reads (R23, column `reads`) -/

/-- The states differ in general registers at most, and not in those of `rs`. -/
def AlikeOn (rs : List Reg) (s s' : State) : Prop := ∃ v, s' = { s with v := v } ∧ ∀ r ∈ rs, s'.reg r = s.reg r

theorem alikeOn_setReg {rs : List Reg} {r : Reg} (hr : r ∉ rs) (s : State) (b : Byte) : AlikeOn rs s (s.setReg r b) :=
  ⟨_, rfl, fun _ hx => State.reg_setReg_ne s r b fun h => hr (h ▸ hx)⟩

/-- Only the registers V0 to Vx are in the block (R164). -/
theorem blockRegs_congr {s s' : State} {x : Reg} (h : ∀ r ≤ x, s'.reg r = s.reg r) : blockRegs s' x = blockRegs s x := by
  have hlen : ∀ u, (blockRegs u x).length = x.val + 1 := fun u => length_blockRegs u x
  refine List.ext_getElem ((hlen _).trans (hlen _).symm) fun j hj hj' => ?_
  have hjx : j < x.val + 1 := by rwa [hlen] at hj
  have hx := x.isLt
  have hle : (⟨j, by omega⟩ : Reg) ≤ x := Nat.le_of_lt_succ hjx
  rw [← List.getD_eq_getElem _ 0, ← List.getD_eq_getElem _ 0]
  exact (getD_blockRegs s' hle).trans ((h _ hle).trans (getD_blockRegs s hle).symm)

theorem stopState_of_alikeOn {i : Instr} {s s' : State} (h : AlikeOn (regsRead i) s s') :
    stopState i s' = stopState i s := by
  obtain ⟨v, rfl, h⟩ := h
  cases i
  case skp x | sknp x => simp only [stopState, faultCause, h x (by simp [regsRead])]
  all_goals rfl

/-- The cells of a draw depend on Vx, Vy, I and the bytes from there. -/
theorem drwCells_congr {x y : Reg} {s s' : State} (hx : s'.reg x = s.reg x) (hy : s'.reg y = s.reg y) (hi : s'.i = s.i)
    (hm : ∀ a, s'.byte a = s.byte a) (n : Nat) : drwCells x y n s' = drwCells x y n s := by
  have hrows : Memory.readBytes s'.mem (indexAddr s') n = Memory.readBytes s.mem (indexAddr s) n := by
    rw [indexAddr, indexAddr, hi]
    exact List.map_congr_left fun j _ => hm _
  rw [drwCells, drwCells, hx, hy, hrows]

/-- Beside the registers, the result is the same. -/
theorem result_of_alikeOn {i : Instr} {s s' : State} (h : AlikeOn (regsRead i) s s') :
    ∃ v, result i s' = { result i s with v := v } := by
  obtain ⟨v, rfl, h⟩ := h
  cases i
  case seImm x _ | sneImm x _ | skp x | sknp x | ldDtVx x | ldStVx x | addI x | ldF x | ldB x =>
    have hx := h x (by simp [regsRead])
    refine ⟨v, ?_⟩
    simp only [result, exec, execSeImm, execSneImm, execLdDtVx, execLdStVx, execAddI, execLdF, hx]
    rfl
  case seReg x y | sneReg x y =>
    have hx := h x (by simp [regsRead])
    have hy := h y (by simp [regsRead])
    refine ⟨v, ?_⟩
    simp only [result, exec, execSeReg, execSneReg, hx, hy]
    rfl
  case drw x y n =>
    have hcells := drwCells_congr (h x (by simp [regsRead])) (h y (by simp [regsRead])) rfl (fun _ => rfl) n
    refine ⟨v.set vf.val (flagByte (drawCells s.disp (drwCells x y n s)).2), ?_⟩
    simp only [result, hcells]
    rfl
  case jpV0 =>
    have h0 := h 0 (by simp [regsRead])
    refine ⟨v, ?_⟩
    simp only [result, exec, execJpV0, h0]
    rfl
  case storeRegs x =>
    have hblock := blockRegs_congr fun r hr => h r (mem_regsUpTo.2 hr)
    refine ⟨v, ?_⟩
    simp only [result, hblock]
    rfl
  -- the registers that every other instruction reads decide registers alone
  all_goals exact ⟨_, rfl⟩

theorem reg_setReg_congr {s s' : State} {x r : Reg} {b b' : Byte} (hr : r ∈ [x]) (hb : b' = b) :
    (s'.setReg x b').reg r = (s.setReg x b).reg r := by
  obtain rfl := List.mem_singleton.1 hr
  rw [State.reg_setReg_self, State.reg_setReg_self, hb]

theorem reg_setFlagThenReg_congr {s s' : State} {x r : Reg} {c c' b b' : Byte} (hr : r ∈ [vf, x]) (hc : c' = c)
    (hb : b' = b) : (s'.setFlagThenReg c' x b').reg r = (s.setFlagThenReg c x b).reg r := by
  rw [State.reg_setFlagThenReg, State.reg_setFlagThenReg, hc, hb]
  by_cases hx : r = x
  · rw [if_pos hx, if_pos hx]
  · have hvf : r = vf := by simpa [hx] using hr
    rw [if_neg hx, if_neg hx, if_pos hvf, if_pos hvf]

/-- What is written into a register is the same. -/
theorem reg_result_of_alikeOn {i : Instr} {s s' : State} (h : AlikeOn (regsRead i) s s') {r : Reg}
    (hr : r ∈ regsWritten i) : (result i s').reg r = (result i s).reg r := by
  obtain ⟨v, rfl, h⟩ := h
  cases i
  case ldImm | ldVxDt | ldVxK | rnd => exact reg_setReg_congr hr rfl
  case addImm x nn => exact reg_setReg_congr hr (congrArg (· + nn) (h x (by simp [regsRead])))
  case ldReg x y => exact reg_setReg_congr hr (h y (by simp [regsRead]))
  case orReg x y | andReg x y | xorReg x y =>
    have hx := h x (by simp [regsRead])
    have hy := h y (by simp [regsRead])
    exact reg_setReg_congr hr (by rw [hx, hy])
  case addReg x y | subReg x y | subnReg x y =>
    have hx := h x (by simp [regsRead])
    have hy := h y (by simp [regsRead])
    exact reg_setFlagThenReg_congr hr (by rw [hx, hy]) (by rw [hx, hy])
  case shr x _ | shl x _ =>
    have hx := h x (by simp [regsRead])
    exact reg_setFlagThenReg_congr hr (by rw [hx]) (by rw [hx])
  case drw x y n =>
    have hcells := drwCells_congr (h x (by simp [regsRead])) (h y (by simp [regsRead])) rfl (fun _ => rfl) n
    obtain rfl := List.mem_singleton.1 hr
    rw [reg_result_drw, reg_result_drw, hcells]
  case loadRegs x =>
    have hle : r ≤ x := mem_regsUpTo.1 hr
    rw [reg_result_loadRegs, reg_result_loadRegs, if_pos hle, if_pos hle]
    rfl
  -- every other instruction writes no register
  all_goals cases hr

/-- States that are alike beside the registers, and read all registers but `r` alike. -/
theorem setReg_eq_of_regs {t t' : State} {v : Vector Byte 16} (ht : t' = { t with v := v }) {r : Reg}
    (h : ∀ q, q ≠ r → t'.reg q = t.reg q) (b : Byte) : t'.setReg r b = t.setReg r b := by
  refine State.ext_of_reg (by rw [ht]; rfl) fun q => ?_
  rw [State.reg_setReg, State.reg_setReg]
  by_cases hq : q = r
  · rw [if_pos hq, if_pos hq]
  · rw [if_neg hq, if_neg hq, h q hq]

/-- A register outside the column `reads` decides nothing but its own value. -/
theorem result_setReg {i : Instr} {r : Reg} (hr : r ∉ regsRead i) (s : State) (b : Byte) :
    (result i (s.setReg r b)).setReg r 0 = (result i s).setReg r 0 ∧
    (r ∈ regsWritten i → result i (s.setReg r b) = result i s) := by
  have h := alikeOn_setReg hr s b
  obtain ⟨v, hv⟩ := result_of_alikeOn h
  have hreg : ∀ q, q ≠ r ∨ q ∈ regsWritten i → (result i (s.setReg r b)).reg q = (result i s).reg q := by
    intro q hq
    by_cases hw : q ∈ regsWritten i
    · exact reg_result_of_alikeOn h hw
    · rw [reg_result hw, reg_result hw, State.reg_setReg_ne s r b (hq.resolve_right hw)]
  refine ⟨setReg_eq_of_regs hv (fun q hq => hreg q (.inl hq)) 0, fun hw => ?_⟩
  refine State.ext_of_reg (by rw [hv]) fun q => hreg q ?_
  exact (ne_or_eq q r).imp_right fun hq : q = r => hq ▸ hw

/-- Settles O41: an instruction that stops changes STATE alone; a result follows the two columns. -/
theorem registersReadAndWrittenByTheTable : Obligations.RegistersReadAndWrittenByTheTable := by
  intro i s t ht
  cases (exec_eq_answer i s).symm.trans ht
  refine ⟨fun r => reg_answer, fun r b hr => ⟨_, exec_eq_answer i _, ?_⟩⟩
  unfold answer
  rw [stopState_of_alikeOn (alikeOn_setReg hr s b)]
  cases hstop : stopState i s with
  | some e =>
    refine ⟨State.setReg_setReg { s with state := e } r 0 b, fun _ hc hkey => ?_⟩
    obtain ⟨k, hk, -⟩ | ⟨x, hx, -, hn⟩ := stopState_cases hstop
    · cases hc.symm.trans hk
    · exact absurd (hkey x hx) hn
  | none =>
    obtain ⟨hrest, hall⟩ := result_setReg hr s b
    exact ⟨hrest, fun hw _ _ => hall hw⟩

/-! ## The memory an instruction writes (R57) -/

/-- A byte that an instruction changes is one that it stores to. -/
theorem storesTo_of_byte_ne {i : Instr} {s t : State} {a : Nat} (ht : exec i s = .next t) (hne : t.byte a ≠ s.byte a) :
    a < 4096 ∧ storesTo i s a := by
  cases hstop : stopState i s with
  | some e =>
    cases (exec_of_stopState hstop).symm.trans ht
    exact absurd rfl hne
  | none =>
    have hc := faultCause_of_stopState_none hstop
    cases (exec_of_stopState_none hstop).symm.trans ht
    cases i
    case ldB x =>
      have hb : s.i.toNat + 2 < 4096 := Nat.not_le.1 (check_passes hc)
      obtain ⟨u, hu, -, hother, -⟩ := storeAtIndex_moves (bs := bcdDigits (s.reg x)) hb
      cases hu.symm.trans ht
      have hin := mt (hother a) hne
      rw [length_bcdDigits] at hin
      simp only [storesTo]
      omega
    case storeRegs x =>
      have hb : s.i.toNat + x.val < 4096 := Nat.not_le.1 (check_passes hc)
      obtain ⟨u, hu, -, hother, -⟩ := storeRegs_moves hb
      cases hu.symm.trans ht
      have hin := mt (hother a) hne
      simp only [storesTo]
      omega
    -- every other instruction leaves memory
    all_goals exact absurd rfl hne

theorem storesTo_state (i : Instr) (s : State) (e : ExecState) (a : Nat) :
    storesTo i { s with state := e } a = storesTo i s a := by cases i <;> rfl

theorem completeWait_mem (x : Reg) (s : State) : (completeWait x s).mem = s.mem := by
  obtain ⟨hn, -⟩ | ⟨k, hk, -⟩ := lowestKey_cases s
  · rw [completeWait_of_noKey hn]
  · rw [completeWait_of_lowestKey hk]; rfl

/-- Settles O42: of all that a step can do, only an instruction changes memory. -/
theorem onlyStoresChangeMemory : Obligations.OnlyStoresChangeMemory := by
  intro s t a ht hne
  obtain ⟨rfl, -⟩ | ⟨x, -, rfl⟩ | ⟨-, -, rfl⟩ | ⟨-, -, rfl, -⟩ | ⟨-, -, i, hd, hx⟩ := step_cases ht
  · exact absurd rfl hne
  · exact absurd (congrArg (Memory.read · a) (completeWait_mem x s)) hne
  · exact absurd rfl hne
  · exact absurd rfl hne
  · obtain ⟨ha, hstore⟩ := storesTo_of_byte_ne hx hne
    exact ⟨ha, i, hd, storesTo_state i s .running a ▸ hstore⟩

end Sys2Proof.Machine

/-!
PROOFS. The invariant of every reachable state: it holds after reset, every step keeps it, and so does every other
transaction.
-/

namespace Sys2Proof.Machine

/-! ## What a result leaves within the invariant's bounds -/

theorem result_saved (i : Instr) (s : State) : (result i s).saved = s.saved := by cases i <;> rfl

theorem wf_result {s : State} (h : Memory.wf s.mem) (i : Instr) : Memory.wf (result i s).mem := by
  cases i
  case ldB | storeRegs => exact Memory.wf_writeBytes h _ _
  -- every other instruction leaves memory
  all_goals exact h

/-- A stack entry is an old one or the PC that a call pushed. -/
theorem entry_result_le {s : State} {n : Nat} (hpc : s.pc.toNat ≤ n) (h : ∀ j, (s.entry j).toNat ≤ n) (i : Instr)
    (j : Fin 16) : ((result i s).entry j).toNat ≤ n := by
  cases i
  case call nnn =>
    rw [entry_result_call]
    split
    · exact hpc
    · exact h j
  -- every other instruction leaves the stack
  all_goals exact h j

/-- A result is in a STATE that fetches (R108). -/
theorem fetches_result {s : State} (hf : s.state.fetches = true) (i : Instr) : (result i s).state.fetches = true := by
  cases i
  case cls | drw | ldVxK => rfl
  -- every other instruction leaves STATE
  all_goals exact hf

/-- From a PC and stack entries of at most 4094, no PC of R107's table exceeds 0xFF + 0xFFF. -/
theorem PcAfter.le {i : Instr} {s : State} {pc : Nat} (h : PcAfter i s pc) (hc : faultCause i s = none)
    (hpc : s.pc.toNat ≤ 4094) (hstack : ∀ j, (s.entry j).toNat ≤ 4094) : pc ≤ 4350 := by
  cases i
  case jp nnn | call nnn =>
    have hn := nnn.isLt
    simp only [PcAfter] at h
    omega
  case jpV0 nnn =>
    have hv := (s.reg 0).isLt
    have hn := nnn.isLt
    simp only [PcAfter] at h
    omega
  case ret =>
    have h0 : s.sp.val ≠ 0 := check_passes hc
    have hentry := hstack ⟨s.sp.val - 1, by omega⟩
    have hret := h ⟨s.sp.val - 1, by omega⟩ (by simp only; omega)
    omega
  case ldVxK =>
    obtain ⟨hnone, hkey⟩ := h
    by_cases ha : AnyKey s
    · have := hkey ha
      omega
    · have := hnone ha
      omega
  case seImm | sneImm | seReg | sneReg | skp | sknp =>
    simp only [PcAfter] at h
    split at h <;> omega
  -- every other instruction moves on by 2
  all_goals
    simp only [PcAfter] at h
    omega

/-! ## Each way a step can go keeps the invariant -/

/-- Without a wait, under way or paused, the last two clauses ask nothing. -/
theorem Inv.of_noWait {s : State} (hm : Memory.wf s.mem) (hs : s.saved.counts = true) (hpc : s.pc.toNat ≤ 4350)
    (hstack : ∀ j, (s.entry j).toNat ≤ 4094) (hb : ∀ t, s.state ≠ .blocked t) (hp : s.state ≠ .paused) : Inv s :=
  ⟨hm, hs, hpc, hstack, fun t h => absurd h (hb t), fun _ h => absurd h hp⟩

theorem Inv.setState {s : State} (h : Inv s) {e : ExecState} (hb : ∀ t, e ≠ .blocked t) (hp : e ≠ .paused) :
    Inv { s with state := e } :=
  .of_noWait h.memory h.saved h.pcBound h.stackBound hb hp

theorem Inv.halt {s : State} (h : Inv s) (k : FaultKind) : Inv { s with state := .halted k } :=
  h.setState (fun _ => ExecState.noConfusion) ExecState.noConfusion

theorem Inv.run {s : State} (h : Inv s) : Inv { s with state := .running } :=
  h.setState (fun _ => ExecState.noConfusion) ExecState.noConfusion

theorem Inv.wait {s : State} (h : Inv s) {x : Reg} (hw : WaitsAt s x) : Inv { s with state := .blocked x } :=
  ⟨h.memory, h.saved, h.pcBound, h.stackBound, fun t ht => by cases ht; exact hw, fun _ hp => by cases hp⟩

theorem Inv.result {s : State} (h : Inv s) {i : Instr} (hf : s.state.fetches = true) (hpc : s.pc.toNat + 1 < 4096)
    (hs : stopState i s = none) : Inv (result i s) := by
  have hc := faultCause_of_stopState_none hs
  obtain ⟨hpcAfter, -⟩ := (pcFollowsTheTable i s _ (exec_of_stopState_none hs)).1 hc
  have hf' := fetches_result hf i
  refine .of_noWait (wf_result h.memory i) ((result_saved i s).symm ▸ h.saved)
    (hpcAfter.le hc (by omega) h.stackBound) (entry_result_le (by omega) h.stackBound i) (fun t ht => ?_) fun ht => ?_
  · rw [ht] at hf'; cases hf'
  · rw [ht] at hf'; cases hf'

theorem Inv.exec {s t : State} (h : Inv s) {i : Instr} (hf : s.state.fetches = true) (hpc : s.pc.toNat + 1 < 4096)
    (hd : decodeWord (fetchWord s) = .ok i) (ht : exec i s = .next t) : Inv t := by
  cases hstop : stopState i s with
  | none =>
    cases (exec_of_stopState_none hstop).symm.trans ht
    exact h.result hf hpc hstop
  | some e =>
    cases (exec_of_stopState hstop).symm.trans ht
    obtain ⟨k, -, rfl⟩ | ⟨x, rfl, rfl, -⟩ := stopState_cases hstop
    · exact h.halt k
    · exact h.wait ⟨hpc, hd⟩

/-- Settles O59: a step changes nothing, raises a fault, or runs an instruction, which `Fx0A` is again while Blocked. -/
theorem stepKeepsTheInvariant : Obligations.StepKeepsTheInvariant := by
  intro s t h ht
  obtain ⟨rfl, -⟩ | ⟨x, hs, -⟩ | ⟨-, -, rfl⟩ | ⟨-, -, rfl, -⟩ | ⟨-, hpc, i, hd, hx⟩ := step_cases ht
  · exact h
  · obtain ⟨hpc, hd⟩ := h.blocked x hs
    have hx : exec (.ldVxK x) { s with state := .running } = .next t := (step_of_blocked_eq_exec hs).symm.trans ht
    exact h.run.exec rfl hpc hd hx
  · exact h.halt _
  · exact h.halt _
  · exact h.run.exec rfl hpc hd hx

/-! ## Reset and the other transactions -/

/-- Every state that resets to the values of R37, whatever its memory and STATE. -/
theorem inv_of_reset {m : Memory} (hm : Memory.wf m) {e : ExecState} (hb : ∀ t, e ≠ .blocked t) (hp : e ≠ .paused)
    (n : Nat) : Inv { State.reset with mem := m, state := e, draws := n } := by
  have hpc : State.reset.pc.toNat ≤ 4350 := by decide
  have hstack : ∀ j, (State.reset.entry j).toNat ≤ 4094 := fun j => by rw [State.entry_reset]; decide
  exact .of_noWait hm rfl hpc hstack hb hp

/-- Settles O58: `inv_of_reset` with the memory and STATE of `State.reset` itself. -/
theorem invariantHoldsAtReset : Obligations.InvariantHoldsAtReset :=
  inv_of_reset wf_reset (fun _ => ExecState.noConfusion) ExecState.noConfusion 0

theorem inv_hostReset (font : Vector Byte 80) (rom : List Byte) (s : State) : Inv (hostReset font rom s) := by
  rw [hostReset_eq]
  split
  · exact inv_of_reset (wf_loadedMemory font _) (fun _ => ExecState.noConfusion) ExecState.noConfusion s.draws
  · exact inv_of_reset (wf_loadedMemory font _) (fun _ => ExecState.noConfusion) ExecState.noConfusion s.draws

theorem tick_eq (s : State) : ∃ d e, (tick s).1 = { s with dt := d, st := e } := by
  cases hc : s.state.counts with
  | true => rw [tick_of_counts hc]; exact ⟨_, _, rfl⟩
  | false => rw [tick_of_not_counts hc]; exact ⟨_, _, rfl⟩

/-- The invariant does not speak of the timers. -/
theorem Inv.tick {s : State} (h : Inv s) : Inv (tick s).1 := by
  obtain ⟨hm, hs, hpc, hstack, hb, hp⟩ := h
  obtain ⟨d, e, htick⟩ := tick_eq s
  rw [htick]
  exact ⟨hm, hs, hpc, hstack, hb, hp⟩

/-- The invariant does not speak of the latch. -/
theorem Inv.setKeys {s : State} (h : Inv s) (k : BitVec 16) : Inv (setKeys k s) := by
  obtain ⟨hm, hs, hpc, hstack, hb, hp⟩ := h
  exact ⟨hm, hs, hpc, hstack, hb, hp⟩

/-- A pause turns a wait into a paused one (R217). -/
theorem Inv.pause {s : State} (h : Inv s) : Inv (pause s) := by
  cases hc : s.state.counts with
  | true =>
    rw [pause_of_counts hc]
    exact ⟨h.memory, hc, h.pcBound, h.stackBound, fun _ hb => ExecState.noConfusion hb, fun t _ hs => h.blocked t hs⟩
  | false => rwa [pause_of_not_counts hc]

/-- A resume takes a paused wait up again (R218). -/
theorem Inv.resume {s : State} (h : Inv s) : Inv (resume s) := by
  by_cases hp : s.state = .paused
  · rw [resume_of_paused hp]
    exact ⟨h.memory, h.saved, h.pcBound, h.stackBound, fun t hs => h.pausedWait t hp hs,
      fun _ hs => absurd hs (counts_iff.1 h.saved).1⟩
  · rwa [resume_of_ne_paused hp]

/-- Settles O60, one operation at a time. -/
theorem transactionsKeepTheInvariant : Obligations.TransactionsKeepTheInvariant := by
  intro op s t r h ht
  cases op with
  | step => exact stepKeepsTheInvariant s t h (transact_step_inv ht).1
  | reset font rom => cases ht; exact inv_hostReset font rom s
  | tick => cases ht; exact h.tick
  | setKeys k => cases ht; exact h.setKeys k
  | pause => cases ht; exact h.pause
  | resume => cases ht; exact h.resume
  | readDisplay | readStatus => cases ht; exact h

/-- Settles O35: the word that decodes to the waiting `Fx0A` is its encoding. -/
theorem blockedStepIsTheWaitingInstruction : Obligations.BlockedStepIsTheWaitingInstruction := by
  intro t s hs h
  obtain ⟨-, hd⟩ := h.blocked t hs
  obtain ⟨-, hw⟩ := encodes_of_decodeWord hd
  exact ⟨hw.symm.trans (wordXS_eq_encode (fam := 0xF) (sel := 0x0A) (by decide) (by decide) t).symm, hd,
    step_of_blocked_eq_exec hs⟩

end Sys2Proof.Machine

/-!
PROOFS. Statements of one or two instructions: stored bytes that are fetched, a sprite drawn twice, a call and its return,
the self-jump and the random byte.
-/

namespace Sys2Proof.Machine

/-- Settles O24: the two bytes at PC are those that the store put there. -/
theorem storedBytesAreFetched : Obligations.StoredBytesAreFetched := by
  intro x j j' s t u hx hj hj' ht hmem hpc
  obtain ⟨t', ht', hstored, -⟩ := storeRegs_moves hx
  cases ht'.symm.trans ht
  have hj'x : j'.val ≤ x.val := hj'
  have hjx : j ≤ x := Fin.le_def.2 (by omega)
  have hbyte (a : Nat) : u.byte a = t.byte a := congrArg (Memory.read · a) hmem
  rw [fetchWord, wordOfBytes_toNat, hpc, Nat.add_assoc, ← hj, hbyte, hbyte, hstored j hjx, hstored j' hj']

/-! ## Drawing twice (R184) -/

/-- Settles O27: the second draw inverts the same cells, and its collisions are the cells that the first one set. -/
theorem drawTwiceRestores : Obligations.DrawTwiceRestores := by
  intro x y n s t u hx hy ht hc hu
  have hb : n = 0 ∨ s.i.toNat + n - 1 < 4096 := by
    have := check_passes hc
    omega
  obtain ⟨t', ht', hcell, -, -, -, hframe⟩ := drw_moves hb x y
  cases ht'.symm.trans ht
  have hi : t.i = s.i := hframe.index (by decide)
  have hcells : drwCells x y n t = drwCells x y n s :=
    drwCells_congr (hframe.registers x (by simpa using hx)) (hframe.registers y (by simpa using hy)) hi
      (hframe.memory (by decide)) n
  obtain ⟨u', hu', hcell', hflag, -⟩ := drw_moves (hi.symm ▸ hb : n = 0 ∨ t.i.toNat + n - 1 < 4096) x y
  cases hu'.symm.trans hu
  rw [hcells] at hcell' hflag
  refine ⟨Display.ext_cells fun k _ => ?display, ?flag⟩
  case display =>
    show u.cell k = s.cell k
    rw [hcell', hcell]
    split
    · exact Bool.not_not _
    · rfl
  case flag =>
    have hset (k : Nat) :
        k ∈ drwCells x y n s ∧ t.cell k = true ↔ k < 2048 ∧ s.cell k = false ∧ t.cell k = true := by
      rw [hcell]
      by_cases hk : k ∈ drwCells x y n s
      · have hlt : k < 2048 := spriteCells_lt hk
        simp [hk, hlt]
      · simp [hk]
    simp only [hflag, hset]
    simp

/-! ## Call and return (R120, R122) -/

/-- Settles O45: the return pops the entry that the call pushed. -/
theorem callThenReturnComesBack : Obligations.CallThenReturnComesBack := by
  intro nnn s t u hsp ht hu
  cases (execCall_of_room (j := ⟨s.sp.val, hsp⟩) rfl nnn).symm.trans ht
  cases (execRet_of_entry (j := ⟨s.sp.val, hsp⟩) rfl).symm.trans hu
  refine ⟨?behind, rfl, fun j hj => ?below⟩
  case behind =>
    rw [PcPlus, State.jump_pc, State.entry_of_stack_set rfl, if_pos rfl]
    exact BitVec.toNat_add _ _
  case below =>
    have hne : j ≠ ⟨s.sp.val, hsp⟩ := fun h => (congrArg Fin.val h).not_lt hj
    exact (State.entry_of_stack_set rfl j).trans (if_neg hne)

/-! ## The self-jump (R250) and the random byte (R151) -/

/-- Settles O12: the word at PC is the jump to PC. -/
theorem selfJumpChangesNothing : Obligations.SelfJumpChangesNothing := by
  intro nnn s hs hpc hn hw
  have hd : decodeWord (fetchWord s) = .ok (.jp nnn) :=
    hw ▸ decodeWord_of_eq_encode (wordA_eq_encode (fam := 1) (by decide) nnn) rfl
  have htarget : zext16 nnn = s.pc := BitVec.eq_of_toNat_eq ((zext16_toNat nnn).trans hpc.symm)
  rw [step_of_legal (fetches_iff.2 (.inl hs)) (by omega) hd, exec, execJp, htarget, ← hs]
  rfl

theorem frame_rnd (s : State) (x : Reg) (b : Byte) (n : Nat) :
    Frame [x] [.draws] s (State.advance { s.setReg x b with draws := n }) :=
  ⟨fun _ h => State.reg_setReg_ne s x b (by simpa using h), fun _ _ => rfl, fun _ => rfl, fun _ => ⟨rfl, fun _ => rfl⟩,
    fun _ => rfl, fun _ => rfl, fun _ _ => rfl, fun _ => rfl, fun h => absurd (by simp) h, rfl, rfl⟩

/-- Settles O19: the byte written is the `&&&` of the free byte and nn, whatever the free byte is. -/
theorem randomByteIsMasked : Obligations.RandomByteIsMasked := by
  intro x nn s
  refine ⟨decodeWord_of_eq_encode (wordXI_eq_encode (fam := 0xC) (by decide) x nn) rfl, ?_⟩
  have hreg : (rndWith (Config.rand s.draws) x nn { s with draws := s.draws + 1 }).reg x = Config.rand s.draws &&& nn :=
    State.reg_setReg_self ..
  refine ⟨_, rfl, fun k => ?bits, fun h0 => ?zero, fun hF => ?ones, rfl, pcPlus_advance s rfl, frame_rnd s x _ _⟩
  case bits => rw [hreg, BitVec.getLsbD_and]
  case zero => rw [hreg, h0]; exact BitVec.and_zero
  case ones => rw [hreg, hF, show (0xFF : Byte) = BitVec.allOnes 8 from rfl, BitVec.and_allOnes]

end Sys2Proof.Machine

/-!
PROOFS. Memory as data (log entry 6), the reset state as the model writes it down (log entries 1 and 5), and what the host
leaves unchanged (R242).
-/

namespace Sys2Proof.Machine

/-- Settles O46: the memory layer's `Memory.read_write`. -/
theorem memoryReadsTheLastWrite : Obligations.MemoryReadsTheLastWrite := fun m _ a' b h =>
  Memory.read_write h m a' b

/-- An address that does not read as unlisted is listed. -/
theorem Memory.mem_of_read_ne {m : Memory} {a : Nat} (h : Memory.read m a ≠ unlisted a) : (a, Memory.read m a) ∈ m := by
  induction m with
  | nil => exact absurd rfl h
  | cons c m ih =>
    obtain ⟨k, b⟩ := c
    rw [Memory.read_cons] at h ⊢
    by_cases hk : k = a
    · subst hk; simp
    · rw [if_neg hk] at h ⊢
      exact List.mem_cons_of_mem _ (ih h)

/-- In canonical form the listed cells are those that do not read as unlisted. -/
theorem Memory.mem_iff {m : Memory} (h : Memory.wf m) (c : Host.Cell) :
    c ∈ m ↔ c.1 < 4096 ∧ Memory.read m c.1 = c.2 ∧ c.2 ≠ unlisted c.1 := by
  constructor
  · intro hc
    obtain ⟨hlt, hne⟩ := h.2 c hc
    exact ⟨hlt, Memory.read_of_mem h hc, hne⟩
  · rintro ⟨-, hread, hne⟩
    have hlisted := Memory.mem_of_read_ne (hread.symm ▸ hne)
    rwa [hread] at hlisted

/-- Settles O47: canonical memories that read alike list the same cells, and a rising list is determined by its cells. -/
theorem canonicalMemoriesAreEqual : Obligations.CanonicalMemoriesAreEqual := by
  intro m m' h h' hread
  have hmem (c : Host.Cell) : c ∈ m ↔ c ∈ m' := by
    rw [Memory.mem_iff h, Memory.mem_iff h']
    refine and_congr_right fun hlt => ?_
    rw [hread c.1 hlt]
  have hirrefl : Std.Irrefl fun p q : Host.Cell => p.1 < q.1 := ⟨fun p => Nat.lt_irrefl p.1⟩
  have hantisymm : Std.Antisymm fun p q : Host.Cell => p.1 < q.1 := ⟨fun _ _ hlt hgt => absurd hlt (Nat.lt_asymm hgt)⟩
  exact h.1.eq_of_mem_iff h'.1 hmem

/-- An empty ROM behind the default font leaves every cell as unlisted (log entry 5). -/
theorem loadedMemory_default_nil : loadedMemory defaultFontRom [] = [] := by
  refine canonicalMemoriesAreEqual _ _ (wf_loadedMemory _ _) Memory.wf_nil fun a _ => ?_
  have hrom : ¬ (0x200 ≤ a ∧ a < 0x200 + ([] : List Byte).length) := fun h => Nat.not_lt.2 h.1 h.2
  rw [read_loadedMemory _ (Nat.zero_le _), if_neg hrom]
  by_cases ha : a < 80
  · rw [if_pos ha]; rfl
  · rw [if_neg ha]
    exact (unlisted_of_ge (Nat.le_of_not_lt ha)).symm

/-- Settles O57: both memories are the empty list, and the first step is `step_hostReset_nil`. -/
theorem resetStateIsTheEmptyRom : Obligations.ResetStateIsTheEmptyRom := by
  have hreset (s : State) : hostReset defaultFontRom [] s = { State.reset with draws := s.draws } := by
    rw [hostReset_eq, acceptedRom_of_le (Nat.zero_le _), loadedMemory_default_nil]
    rfl
  refine ⟨hreset, ?_⟩
  have hstep := step_hostReset_nil defaultFontRom State.reset
  rwa [hreset] at hstep

/-! ## The host beside `step` and `reset` (R242) -/

theorem pause_eq (s : State) : ∃ d e, pause s = { s with state := d, saved := e } := by
  cases hc : s.state.counts with
  | true => exact ⟨_, _, pause_of_counts hc⟩
  | false => exact ⟨_, _, pause_of_not_counts hc⟩

theorem resume_eq (s : State) : ∃ e, resume s = { s with state := e } := by
  by_cases hp : s.state = .paused
  · exact ⟨_, resume_of_paused hp⟩
  · exact ⟨_, resume_of_ne_paused hp⟩

/-- Settles O56: each of these operations writes timers, STATE and SAVED, the latch or nothing. -/
theorem hostNeverWritesProgramState : Obligations.HostNeverWritesProgramState := by
  intro op s t r hstep hreset ht
  cases op with
  | step => exact absurd rfl hstep
  | reset font rom => exact absurd rfl (hreset font rom)
  | tick =>
    obtain ⟨d, e, htick⟩ := tick_eq s
    cases ht
    rw [htick]
    exact ⟨rfl, rfl, rfl, rfl, rfl, rfl, rfl⟩
  | pause =>
    obtain ⟨d, e, hpause⟩ := pause_eq s
    cases ht
    rw [hpause]
    exact ⟨rfl, rfl, rfl, rfl, rfl, rfl, rfl⟩
  | resume =>
    obtain ⟨e, hresume⟩ := resume_eq s
    cases ht
    rw [hresume]
    exact ⟨rfl, rfl, rfl, rfl, rfl, rfl, rfl⟩
  | setKeys | readDisplay | readStatus => cases ht; exact ⟨rfl, rfl, rfl, rfl, rfl, rfl, rfl⟩

end Sys2Proof.Machine
